-- ==== Sys2Proof/Word.lean ====
section
/-!
DEFINITION. The bit widths the spec names (spec/00_scope.md R5, R7): bytes, stream words and the fields of a header and
of a count word.
-/
namespace Sys2Proof

/-- A byte of the buffer: 8 bits (R7). -/
abbrev Byte := BitVec 8

/-- A word of the stream: 32 bits, unsigned (R7, WORD_BITS). -/
abbrev Word := BitVec 32

/-- A record's tag, word[31:24] (R51, TAG_BITS). -/
abbrev Tag := BitVec 8

/-- The ignored low bits of a header word, word[23:0] (R51, OPAQUE_BITS). -/
abbrev Lo24 := BitVec 24

/-- The ADC-channel count of a HIT, countword[31:28] (R52, ADC_BITS). -/
abbrev Nibble := BitVec 4

/-- The ignored low bits of a count word, countword[27:0] (R52). -/
abbrev Lo28 := BitVec 28

end Sys2Proof
end

