-- ==== Sys2Proof/Config.lean ====
section
/-!
DEFINITION. What the spec fixes as parameters (spec/00_scope.md R5, R6; spec/30_encoding.md R66) and the free value it
leaves open. The document's literals are unaudited against a device (93_implementation_defined.md U8; log 11).
-/
namespace Sys2Proof

/-- The five record kinds (R53). -/
inductive Kind where
  | ppsSecond
  | ppsYear
  | trigConfig
  | dataFormat
  | hit
deriving DecidableEq, Repr

/-- TAG_PPS_SECOND (R5, R66). -/
def Config.tagPpsSecond : Tag := 0xE0

/-- TAG_PPS_YEAR (R5, R66). -/
def Config.tagPpsYear : Tag := 0xE4

/-- TAG_TRIG_CONFIG (R5, R66). -/
def Config.tagTrigConfig : Tag := 0xE5

/-- TAG_DATA_FORMAT (R5, R66; 90_conflicts.md C1). -/
def Config.tagDataFormat : Tag := 0xE6

/-- WORD_BYTES (R5). -/
def Config.wordBytes : Nat := 4

/-- ADC_PER_WORD, the divisor of the payload length (R5, R58). -/
def Config.adcPerWord : Nat := 2

/-- HIT_FIXED_WORDS: header and count word of a HIT (R5). -/
def Config.hitFixedWords : Nat := 2

/-- TRIG_CONFIG_WORDS (R5). -/
def Config.trigConfigWords : Nat := 2

/-- MARKER_WORDS: width of PPS_SECOND, PPS_YEAR and DATA_FORMAT (R5). -/
def Config.markerWords : Nat := 1

/-- The longest record: a HIT with n = 15 has 9 words (R50, R58). -/
def Config.longestRecordWords : Nat := 9

/-- IDX_W by default (R6). -/
abbrev Config.idxW : Nat := 32

/-- CNT_W by default (R6). -/
abbrev Config.cntW : Nat := 32

/-- LEN_W by default, from IDX_W (R6). -/
abbrev Config.lenW (idxW : Nat) : Nat := idxW + 2

/-- MAX_BYTES by default, from IDX_W (R6, D16). -/
abbrev Config.maxBytes (idxW : Nat) : Nat := 4 * (2 ^ idxW - 8)

/-- The parameters of a fixed-width build (R6; 92_eei_decisions.md D4, D16). -/
structure Build where
  /-- IDX_W: width of the cursor and of word_count. -/
  idxW : Nat := Config.idxW
  /-- CNT_W: width of seconds and hits. -/
  cntW : Nat := Config.cntW
  /-- LEN_W: width of the byte-length input. -/
  lenW : Nat := Config.lenW idxW
  /-- MAX_BYTES: the largest buffer the build accepts. -/
  maxBytes : Nat := Config.maxBytes idxW
deriving DecidableEq, Repr

/-- The build with every parameter at its default (R6). -/
def Build.default : Build := {}

/-- The constraints of R6: word_count + 7 < 2^IDX_W for every buffer up to MAX_BYTES (R137), CNT_W >= IDX_W (R24), and
LEN_W bits hold every byte length up to MAX_BYTES. -/
abbrev Build.Valid (p : Build) : Prop :=
  p.maxBytes / Config.wordBytes + 7 < 2 ^ p.idxW ∧ p.idxW ≤ p.cntW ∧ p.maxBytes < 2 ^ p.lenW

/-- What a byte of the buffer that the cell list does not name reads as. DESIGN CHOICE, unsafe (log 1): a convention of
the representation; the host supplies every byte of the buffer (R133) and the list names those that are not zero. -/
def Config.unlistedByte : Byte := 0

/-- FREE VALUE (log 6): the cursor after MalformedLength, which the spec leaves without a value (10_state.md section 6,
D20). No body: no statement can rest on it. -/
opaque Config.unspecifiedCursor : Nat → Nat

end Sys2Proof
end

