-- ==== Sys2Proof/Syntax.lean ====
section
/-!
DEFINITION. The instructions of the block: the records of the stream, as their header word selects them
(spec/30_encoding.md R51, R53; spec/opcode_table.json).
-/
namespace Sys2Proof

/-- One constructor per record kind of R53. The table's eight HIT rows tile the 252 tags of ONE kind with ONE rule (R95,
R102), so they are one constructor that carries its tag (log 14). `lo24` is the header's ignored field (R51, R56). The
count word of a HIT is no field: the record's meaning reads it after its first bounds check (R59, R98). -/
inductive Instr where
  /-- Tag 0xE0, one word (R85). -/
  | ppsSecond (lo24 : Lo24)
  /-- Tag 0xE4, one word (R86). -/
  | ppsYear (lo24 : Lo24)
  /-- Tag 0xE5, two words, the second opaque (R87). -/
  | trigConfig (lo24 : Lo24)
  /-- Tag 0xE6, one word (R88). -/
  | dataFormat (lo24 : Lo24)
  /-- Any other tag, two to nine words (R95). -/
  | hit (tag : Tag) (lo24 : Lo24)
deriving DecidableEq, Repr

end Sys2Proof
end

