-- ==== Sys2Proof/WellFormed.lean ====
section
/-!
DEFINITION. Which instructions exist: a HIT's tag is none of the four marker tags (spec/30_encoding.md R53, R63).
-/
namespace Sys2Proof

/-- The tag is one of the four marker tags (R53). -/
def isMarkerTag (t : Tag) : Bool :=
  t == Config.tagPpsSecond || t == Config.tagPpsYear || t == Config.tagTrigConfig || t == Config.tagDataFormat

/-- The one check on an instruction: a HIT is recognised by exclusion (R102), so its tag is no marker tag. -/
def Instr.wellFormed : Instr → Bool
  | .ppsSecond _ => true
  | .ppsYear _ => true
  | .trigConfig _ => true
  | .dataFormat _ => true
  | .hit tag _ => !isMarkerTag tag

end Sys2Proof
end

