-- ==== Sys2Proof/Decode.lean ====
section
/-!
DEFINITION. Bytes to words (spec/20_memory.md R32), words to instructions and back (spec/30_encoding.md R51 to R54), and
the rows of spec/opcode_table.json.
-/
namespace Sys2Proof

/-- Four bytes, lowest offset first, as one big-endian word: {b0, b1, b2, b3} (R32, R140). -/
def wordOfBytes (b0 b1 b2 b3 : Byte) : Word :=
  b0 ++ b1 ++ b2 ++ b3

/-- The four bytes of a word in the order the buffer stores them (R32). -/
def bytesOfWord (w : Word) : List Byte :=
  [w.extractLsb' 24 8, w.extractLsb' 16 8, w.extractLsb' 8 8, w.extractLsb' 0 8]

/-- The bytes of a word stream (R31). -/
def bytesOfWords : List Word → List Byte
  | [] => []
  | w :: ws => bytesOfWord w ++ bytesOfWords ws

/-- tag = word[31:24] (R51, R73). -/
def tagOf (w : Word) : Tag :=
  w.extractLsb' 24 8

/-- lo24 = word[23:0], ignored by the block (R51). -/
def lo24Of (w : Word) : Lo24 :=
  w.extractLsb' 0 24

/-- {tag, lo24} (R51). -/
def headerWord (tag : Tag) (lo24 : Lo24) : Word :=
  tag ++ lo24

/-- The tag map, total over the 256 tags (R53, R54). -/
def kindOfTag (t : Tag) : Kind :=
  if t = Config.tagPpsSecond then .ppsSecond
  else if t = Config.tagTrigConfig then .trigConfig
  else if t = Config.tagPpsYear then .ppsYear
  else if t = Config.tagDataFormat then .dataFormat
  else .hit

/-- The instruction a header word selects (R74): total, since no tag is illegal (R54). -/
def decodeWord (w : Word) : Instr :=
  match kindOfTag (tagOf w) with
  | .ppsSecond => .ppsSecond (lo24Of w)
  | .ppsYear => .ppsYear (lo24Of w)
  | .trigConfig => .trigConfig (lo24Of w)
  | .dataFormat => .dataFormat (lo24Of w)
  | .hit => .hit (tagOf w) (lo24Of w)

/-- The one reason bytes are no header word: fewer than four of them ("attempting to form a word from fewer than 4
remaining bytes is an error", R33). -/
inductive DecodeReject where
  | partialWord (bytes : Nat)
deriving DecidableEq, Repr

/-- The decoder on bytes in buffer order: the instruction and the bytes after its header word, or a named rejection. -/
def decodeBytes : List Byte → Except DecodeReject (Instr × List Byte)
  | b0 :: b1 :: b2 :: b3 :: rest => .ok (decodeWord (wordOfBytes b0 b1 b2 b3), rest)
  | short => .error (.partialWord short.length)

/-- The record kind of an instruction (R53). -/
def Instr.kind : Instr → Kind
  | .ppsSecond _ => .ppsSecond
  | .ppsYear _ => .ppsYear
  | .trigConfig _ => .trigConfig
  | .dataFormat _ => .dataFormat
  | .hit _ _ => .hit

/-- The header word of an instruction (R51, R53, R63). -/
def encodeWord : Instr → Word
  | .ppsSecond lo24 => headerWord Config.tagPpsSecond lo24
  | .ppsYear lo24 => headerWord Config.tagPpsYear lo24
  | .trigConfig lo24 => headerWord Config.tagTrigConfig lo24
  | .dataFormat lo24 => headerWord Config.tagDataFormat lo24
  | .hit tag lo24 => headerWord tag lo24

/-- The bytes of an instruction's header word, in buffer order. The whole record, second word and payload included, is
encoded by `Sys2Proof.Machine.Record.words`. -/
def encode (i : Instr) : List Byte :=
  bytesOfWord (encodeWord i)

/-- One row of spec/opcode_table.json: a header word w is of the row when w AND mask = pattern. -/
structure TableRow where
  mnemonic : String
  pattern : Word
  mask : Word
  kind : Kind
deriving DecidableEq, Repr

/-- The header word is of the row. -/
def TableRow.covers (r : TableRow) (w : Word) : Bool :=
  w &&& r.mask == r.pattern

/-- The four marker rows of spec/opcode_table.json. -/
def markerRows : List TableRow :=
  [ ⟨"PPS_SECOND", 0xE0000000, 0xFF000000, .ppsSecond⟩,
    ⟨"PPS_YEAR", 0xE4000000, 0xFF000000, .ppsYear⟩,
    ⟨"TRIG_CONFIG", 0xE5000000, 0xFF000000, .trigConfig⟩,
    ⟨"DATA_FORMAT", 0xE6000000, 0xFF000000, .dataFormat⟩ ]

/-- The eight HIT rows of spec/opcode_table.json (R65). -/
def hitRows : List TableRow :=
  [ ⟨"HIT", 0x00000000, 0x80000000, .hit⟩,
    ⟨"HIT", 0x80000000, 0xC0000000, .hit⟩,
    ⟨"HIT", 0xC0000000, 0xE0000000, .hit⟩,
    ⟨"HIT", 0xE1000000, 0xFF000000, .hit⟩,
    ⟨"HIT", 0xE2000000, 0xFE000000, .hit⟩,
    ⟨"HIT", 0xE7000000, 0xFF000000, .hit⟩,
    ⟨"HIT", 0xE8000000, 0xF8000000, .hit⟩,
    ⟨"HIT", 0xF0000000, 0xF0000000, .hit⟩ ]

/-- The twelve rows of spec/opcode_table.json. -/
def tableRows : List TableRow :=
  markerRows ++ hitRows

/-- The words a table word stands for: word k is bits 32k+31..32k of w, the bits from nbits up being zero; as many words
as the longest record has (R50). -/
def tableWords (nbits w : Nat) : List Word :=
  (List.range Config.longestRecordWords).map fun k => BitVec.ofNat 32 ((w % 2 ^ nbits) >>> (32 * k))

/-- Those words as the buffer stores them: each big-endian, the first at the lowest offset (R32). -/
def tableBytes (nbits w : Nat) : List Byte :=
  bytesOfWords (tableWords nbits w)

/-- The instruction the decoder reads from a table word. -/
def decodeTableWord (nbits w : Nat) : Option Instr :=
  match decodeBytes (tableBytes nbits w) with
  | .ok (i, _) => some i
  | .error _ => none

end Sys2Proof
end

