-- ==== Sys2Proof/Machine/State.lean ====
section
/-!
DEFINITION. The state of one decoder instance (spec/10_state.md R10), the parameters of its call, its input port, and
the reset state (spec/70_reset_and_hazards.md R131).
-/
namespace Sys2Proof.Machine

/-- Where a call stands (R15). -/
inductive Phase where
  | idle
  | scan
  | done
  | fault
deriving DecidableEq, Repr

/-- The error record's content (R16, R106, R107): the rejected byte length, or the kind of the record that did not fit
and the word index of its header. -/
inductive Err where
  | malformedLength (length : Nat)
  | truncatedFrame (kind : Kind) (index : Nat)
deriving DecidableEq, Repr

/-- The byte buffer of a call: offsets 0 .. len-1 exist and nothing else does (R30, R39). `cells` names the bytes that
differ from `Config.unlistedByte`, in rising order of offset (log 1). -/
structure Buffer where
  len : Nat
  cells : List Host.Cell
deriving DecidableEq, Repr

/-- The state of one decoder instance. -/
structure State where
  /-- Where the call stands (R15). -/
  phase : Phase
  /-- The cursor: the word index of the next unconsumed word (R25). -/
  i : Nat
  /-- PPS_SECOND records consumed so far in the call (R11). -/
  seconds : Nat
  /-- HIT records consumed so far in the call (R12). -/
  hits : Nat
  /-- The error record; it has a value only in FAULT (R16). -/
  err : Option Err
  /-- The buffer and length of the call, its parameters (R10, R30; log 1). -/
  buf : Buffer
  /-- Input port: the host's pending start event, with the buffer it lends (R23 `start`, `buf_len`; R133; log 2). -/
  start : Option Buffer
  /-- The model's own field: how many free values were drawn (log 6). -/
  draws : Nat
deriving DecidableEq, Repr

/-- The machine stops with a fault. -/
inductive Fault where
  /-- `MemRead` at an offset at or past the end of the buffer (93_implementation_defined.md U13). Raised by the header
  fetch and by HIT's count-word read if the word they read does not exist. Safe: never a value is given; and no step
  reaches it, because every read is checked before it is made (R35). -/
  | readOutOfBounds (offset : Nat)
deriving DecidableEq, Repr

/-- No meaning is given. -/
inductive Refusal where
  /-- An instruction without a meaning yet. No arm of exec answers it. Safe. -/
  | notModelled (mnemonic : String)
  /-- The host raised `start` while a call is in SCAN (93_implementation_defined.md U12: `refuse`, no move in the model;
  D11). Raised by `step` alone. Safe (log 3). -/
  | startDuringScan
deriving DecidableEq, Repr

/-- A buffer of no bytes. -/
def Buffer.empty : Buffer := { len := 0, cells := [] }

/-- Power-on (R131): phase IDLE, no error, no call asked for. R131 gives the cursor and the counters no value; 0 is the
model's DESIGN CHOICE (log 5), shown at no port and overwritten by the start of every call (R130). -/
def State.reset : State :=
  { phase := .idle, i := 0, seconds := 0, hits := 0, err := none, buf := Buffer.empty, start := none, draws := 0 }

end Sys2Proof.Machine
end

