-- ==== Sys2Proof/Machine/Ops.lean ====
section
/-!
DEFINITION. The named operations on the buffer and on the registers, and taking an error (spec/20_memory.md,
spec/60_exceptions.md R110).
-/
namespace Sys2Proof.Machine

/-! ### The buffer -/

/-- The byte the cell list gives an offset. -/
def cellByte : List Host.Cell → Nat → Byte
  | [], _ => Config.unlistedByte
  | (a, v) :: rest, x => if a = x then v else cellByte rest x

/-- buf[a], defined for 0 <= a < L only (R8, R30). -/
def Buffer.byte (b : Buffer) (a : Nat) : Option Byte :=
  if a < b.len then some (cellByte b.cells a) else none

/-- MemRead(addr, 4): four bytes, big-endian; no value past the end of the buffer (R8, R32, R35). -/
def Buffer.memRead (b : Buffer) (addr : Nat) : Option Word :=
  match b.byte addr, b.byte (addr + 1), b.byte (addr + 2), b.byte (addr + 3) with
  | some b0, some b1, some b2, some b3 => some (wordOfBytes b0 b1 b2 b3)
  | _, _, _, _ => none

/-- addr = 4 * k, the one addressing mode (R46). -/
def wordOffset (k : Nat) : Nat :=
  Config.wordBytes * k

/-- stream[k] (R8, R31). -/
def Buffer.word (b : Buffer) (k : Nat) : Option Word :=
  b.memRead (wordOffset k)

/-- word_count = L / 4 (R14). -/
def Buffer.wordCount (b : Buffer) : Nat :=
  b.len / Config.wordBytes

/-- L mod 4 = 0 (R33). -/
def Buffer.aligned (b : Buffer) : Bool :=
  b.len % Config.wordBytes == 0

/-- The canonical form of a cell list for the offsets lo .. len-1: strictly rising, within the buffer, no entry equal to
what an unlisted offset reads as. -/
def cellsWf (len : Nat) : Nat → List Host.Cell → Bool
  | _, [] => true
  | lo, (a, v) :: rest => decide (lo ≤ a) && decide (a < len) && (v != Config.unlistedByte) && cellsWf len (a + 1) rest

/-- The canonical form of a buffer: equal contents are equal data (log 1). -/
def Buffer.wf (b : Buffer) : Bool :=
  cellsWf b.len 0 b.cells

/-- A cell to put in front of a list, unless the list need not name it. -/
def consCell (a : Nat) (v : Byte) (cells : List Host.Cell) : List Host.Cell :=
  if v = Config.unlistedByte then cells else (a, v) :: cells

/-- Setting one byte in a cell list, keeping the canonical form. -/
def writeCell : List Host.Cell → Nat → Byte → List Host.Cell
  | [], a, v => consCell a v []
  | (a', v') :: rest, a, v =>
    if a < a' then consCell a v ((a', v') :: rest)
    else if a = a' then consCell a v rest
    else (a', v') :: writeCell rest a v

/-- Setting consecutive bytes in a cell list. -/
def writeCells : List Host.Cell → Nat → List Byte → List Host.Cell
  | cells, _, [] => cells
  | cells, a, v :: vs => writeCells (writeCell cells a v) (a + 1) vs

/-- The host's placing of bytes in a buffer it owns, before a call (R133): the block itself never writes (R36). The length
grows, to a whole number of words, if the bytes reach past its end. -/
def Buffer.place (b : Buffer) (a : Nat) (bytes : List Byte) : Buffer :=
  { len := Config.wordBytes * ((max b.len (a + bytes.length) + 3) / Config.wordBytes),
    cells := writeCells b.cells a bytes }

/-- The cells of consecutive bytes from an offset on. -/
def cellsOfBytes : Nat → List Byte → List Host.Cell
  | _, [] => []
  | a, v :: vs => consCell a v (cellsOfBytes (a + 1) vs)

/-- The buffer that holds exactly these bytes (R30). -/
def Buffer.ofBytes (bytes : List Byte) : Buffer :=
  { len := bytes.length, cells := cellsOfBytes 0 bytes }

/-- The buffer that holds exactly these words, each big-endian (R31, R32). -/
def Buffer.ofWords (words : List Word) : Buffer :=
  Buffer.ofBytes (bytesOfWords words)

/-! ### The registers -/

/-- i <- i + k, the one control transfer (R82). -/
def advance (k : Nat) (s : State) : State :=
  { s with i := s.i + k }

/-- seconds <- seconds + 1 (R85). -/
def countSecond (s : State) : State :=
  { s with seconds := s.seconds + 1 }

/-- hits <- hits + 1 (R100). -/
def countHit (s : State) : State :=
  { s with hits := s.hits + 1 }

/-- Taking an error (R110): phase <- FAULT, err <- the error's information. Nothing else: the cursor stays on the failing
record's header, and the counters, discarded by R21, stay frozen where no port shows them (D8; log 7). There is no handler
and no return from an error (R112): the only way out is a new call. -/
def raise (e : Err) (s : State) : State :=
  { s with phase := .fault, err := some e }

/-- raise TruncatedFrame(kind, i) (R107). -/
def raiseTruncated (kind : Kind) (s : State) : State :=
  raise (.truncatedFrame kind s.i) s

/-- return Ok(seconds, hits): phase <- DONE (R72). -/
def returnOk (s : State) : State :=
  { s with phase := .done }

/-- Drawing a free value for the cursor (log 6). -/
def loseCursor (s : State) : State :=
  { s with i := Config.unspecifiedCursor s.draws, draws := s.draws + 1 }

/-- The start-of-call values over a buffer, whatever the instance held before (R22, R130). -/
def startValues (b : Buffer) (s : State) : State :=
  { s with phase := .scan, i := 0, seconds := 0, hits := 0, err := none, buf := b, start := none }

/-- Call entry (R71): a length that is no multiple of 4 raises MalformedLength(L) before anything is read (R33, R106), and
leaves the cursor without a value (D20); any other length begins the scan. -/
def beginCall (b : Buffer) (s : State) : State :=
  if b.aligned then startValues b s else raise (.malformedLength b.len) (loseCursor (startValues b s))

/-- The host's move: lend a buffer and raise `start` (R133, R139). -/
def State.present (s : State) (b : Buffer) : State :=
  { s with start := some b }

end Sys2Proof.Machine
end

