-- ==== Sys2Proof/Machine/Operands.lean ====
section
/-!
DEFINITION. The one operand of the protocol, the payload length of a HIT, and the width of a record
(spec/30_encoding.md R52, R57, R58; spec/42_hit_record.md R96, R97).
-/
namespace Sys2Proof.Machine

/-- adc_count = (w >> 28) AND 0xF = countword[31:28] (R52, R96). -/
def adcCountOf (w : Word) : Nibble :=
  w.extractLsb' 28 4

/-- lo28 = countword[27:0], ignored by the block (R52). -/
def lo28Of (w : Word) : Lo28 :=
  w.extractLsb' 0 28

/-- {n[3:0], lo28}: a count word (R52). -/
def countWord (n : Nibble) (lo28 : Lo28) : Word :=
  n ++ lo28

/-- extra = adc_count / 2, floor division (R58, R97). -/
def extraWords (n : Nibble) : Nat :=
  n.toNat / Config.adcPerWord

/-- width(kind, n): the number of words of a record, header included (R57). -/
def width (kind : Kind) (n : Nibble) : Nat :=
  match kind with
  | .ppsSecond => Config.markerWords
  | .ppsYear => Config.markerWords
  | .trigConfig => Config.trigConfigWords
  | .dataFormat => Config.markerWords
  | .hit => Config.hitFixedWords + extraWords n

/-- The width of a kind that the tag alone gives: all but HIT (R59). -/
def markerWidth (kind : Kind) : Nat :=
  width kind 0

/-- stream[i + 1], the word after the header (R96). -/
def secondWord (s : State) : Option Word :=
  s.buf.word (s.i + 1)

end Sys2Proof.Machine
end

