-- ==== Sys2Proof/Machine/Flags.lean ====
section
/-!
DEFINITION. The hardware has no flags and no condition codes (spec/10_state.md R17). What stands here are the tests a step
makes and keeps nowhere: the end-of-scan test and the two bounds tests, on naturals, so exact (spec/40_scan_control.md R72,
R79, R84).
-/
namespace Sys2Proof.Machine

/-- i >= word_count (R72). -/
def endOfScan (s : State) : Bool :=
  decide (s.buf.wordCount ≤ s.i)

/-- i + 1 < word_count: the record's second word exists (R87, R98). -/
def hasSecondWord (s : State) : Bool :=
  decide (s.i + 1 < s.buf.wordCount)

/-- i + 2 + extra <= word_count: the payload fits, an exact fit included (R79, R99). -/
def payloadFits (s : State) (extra : Nat) : Bool :=
  decide (s.i + 2 + extra ≤ s.buf.wordCount)

end Sys2Proof.Machine
end

