-- ==== Sys2Proof/Machine/Hit.lean ====
section
/-!
DEFINITION. The HIT record (spec/42_hit_record.md). As for the markers, `step` calls the meaning with the phase SCAN and
i < word_count.
-/
namespace Sys2Proof.Machine

/-- The part of HIT after its count word is read: the second bounds check and the two effects, in the document's order
(R97, R99, R100). -/
def finishHit (n : Nibble) (s : State) : State :=
  if payloadFits s (extraWords n) then advance (width .hit n) (countHit s) else raiseTruncated .hit s

/-- HIT (R95): check that the count word exists (R98), read it (R96), check that the payload fits (R99), count and advance
(R100). The tag and `lo24` are ignored (R56, R102). -/
def execHit (_tag : Tag) (_lo24 : Lo24) (s : State) : Host.Outcome State Fault Refusal :=
  if hasSecondWord s then
    match secondWord s with
    | some c => .next (finishHit (adcCountOf c) s)
    | none => .fault (.readOutOfBounds (wordOffset (s.i + 1)))
  else .next (raiseTruncated .hit s)

end Sys2Proof.Machine
end

