-- ==== Sys2Proof/Machine/Markers.lean ====
section
/-!
DEFINITION. The four marker records (spec/41_marker_records.md). A meaning runs with the phase SCAN, i < word_count and
word i fetched: `step` calls it so (R74). The header's `lo24` is ignored (R56).
-/
namespace Sys2Proof.Machine

/-- PPS_SECOND (R85): seconds + 1, i + 1; cannot fail. -/
def execPpsSecond (_lo24 : Lo24) (s : State) : Host.Outcome State Fault Refusal :=
  .next (advance (markerWidth .ppsSecond) (countSecond s))

/-- PPS_YEAR (R86): i + 1 and nothing else; cannot fail. -/
def execPpsYear (_lo24 : Lo24) (s : State) : Host.Outcome State Fault Refusal :=
  .next (advance (markerWidth .ppsYear) s)

/-- TRIG_CONFIG (R87): i + 2 if the second word exists, else TruncatedFrame(TRIG_CONFIG, i). The configuration word is
never read (R37). -/
def execTrigConfig (_lo24 : Lo24) (s : State) : Host.Outcome State Fault Refusal :=
  if hasSecondWord s then .next (advance (markerWidth .trigConfig) s) else .next (raiseTruncated .trigConfig s)

/-- DATA_FORMAT (R88): i + 1 and nothing else; cannot fail. -/
def execDataFormat (_lo24 : Lo24) (s : State) : Host.Outcome State Fault Refusal :=
  .next (advance (markerWidth .dataFormat) s)

end Sys2Proof.Machine
end

