-- ==== Sys2Proof/Machine/Dispatch.lean ====
section
/-!
DEFINITION. The dispatch of spec/40_scan_control.md R74: one arm per record kind, each a direct call of its meaning.
-/
namespace Sys2Proof.Machine

def exec (i : Instr) (s : State) : Host.Outcome State Fault Refusal :=
  match i with
  | .ppsSecond lo24 => Sys2Proof.Machine.execPpsSecond lo24 s
  | .ppsYear lo24 => Sys2Proof.Machine.execPpsYear lo24 s
  | .trigConfig lo24 => Sys2Proof.Machine.execTrigConfig lo24 s
  | .dataFormat lo24 => Sys2Proof.Machine.execDataFormat lo24 s
  | .hit tag lo24 => Sys2Proof.Machine.execHit tag lo24 s

end Sys2Proof.Machine
end

