-- ==== Sys2Proof/Machine/Scan.lean ====
section
/-!
DEFINITION. What a step does around a record: the fetch and the scan loop's body (spec/40_scan_control.md R72 to R75), and
the phases with no scan (spec/60_exceptions.md R123).
-/
namespace Sys2Proof.Machine

/-- word <- MemRead(4*i, 4), decoded (R73, R74). -/
def fetchInstr (s : State) : Option Instr :=
  (s.buf.word s.i).map decodeWord

/-- One step in SCAN (R72 to R75): the end-of-scan test, then fetch, then dispatch. -/
def scanStep (s : State) : Host.Outcome State Fault Refusal :=
  if endOfScan s then .next (returnOk s)
  else
    match fetchInstr s with
    | some i => exec i s
    | none => .fault (.readOutOfBounds (wordOffset s.i))

/-- A step in IDLE, DONE or FAULT: begin the call the host asked for (R71), else do nothing until the next call (R123), the
outcome held (R139; log 2). -/
def awaitStart (s : State) : State :=
  match s.start with
  | some b => beginCall b s
  | none => s

/-- The state the host wants the next instruction run in: SCAN, no error, no start pending, and the table word's bytes at
the cursor's offset (log 12). -/
def placeProgram (s : State) (nbits w : Nat) : State :=
  { s with phase := .scan, err := none, start := none, buf := s.buf.place (wordOffset s.i) (tableBytes nbits w) }

end Sys2Proof.Machine
end

