-- ==== Sys2Proof/Machine/Step.lean ====
section
/-!
DEFINITION. One step: one record, the end-of-scan return, or a phase with no scan (spec/00_scope.md R9,
spec/40_scan_control.md R75).
-/
namespace Sys2Proof.Machine

/-- One step of the machine. A start raised during SCAN is refused (U12; log 3). -/
def step (s : State) : Host.Outcome State Fault Refusal :=
  match s.phase with
  | .scan =>
    match s.start with
    | some _ => .refused .startDuringScan
    | none => scanStep s
  | .idle => .next (awaitStart s)
  | .done => .next (awaitStart s)
  | .fault => .next (awaitStart s)

/-- `s` with a table word's instruction stored where the next step fetches (log 12). -/
def State.withFetchWord (s : State) (nbits w : Nat) : State :=
  placeProgram s nbits w

end Sys2Proof.Machine
end

