-- ==== Sys2Proof/Machine/Reference.lean ====
section
/-!
DEFINITION. The reference function of spec/40_scan_control.md R77, written from its pseudocode alone: it uses neither the
decoder nor the meanings of the machine, only the buffer and the field positions. Its loop takes fuel (log 17).
-/
namespace Sys2Proof.Machine

/-- The three outcomes of a call (R70). -/
inductive CallOutcome where
  | ok (seconds hits : Nat)
  | malformedLength (length : Nat)
  | truncatedFrame (kind : Kind) (index : Nat)
deriving DecidableEq, Repr

/-- What the body of R77's loop answers: go on with (i, seconds, hits), or end the call. -/
inductive LoopResult where
  | again (i seconds hits : Nat)
  | ended (o : CallOutcome)
deriving DecidableEq, Repr

/-- The default arm of R77's case: the HIT record. -/
def loopHit (b : Buffer) (i seconds hits : Nat) : Option LoopResult :=
  if i + 1 < b.wordCount then
    (b.word (i + 1)).map fun c =>
      let extra := (c.toNat >>> 28 &&& 0xF) / 2
      if i + 2 + extra ≤ b.wordCount then .again (i + 2 + extra) seconds (hits + 1)
      else .ended (.truncatedFrame .hit i)
  else some (.ended (.truncatedFrame .hit i))

/-- The case on the tag of R77. -/
def loopCase (b : Buffer) (tag i seconds hits : Nat) : Option LoopResult :=
  if tag = Config.tagPpsSecond.toNat then some (.again (i + 1) (seconds + 1) hits)
  else if tag = Config.tagTrigConfig.toNat then
    if i + 1 < b.wordCount then some (.again (i + 2) seconds hits)
    else some (.ended (.truncatedFrame .trigConfig i))
  else if tag = Config.tagPpsYear.toNat then some (.again (i + 1) seconds hits)
  else if tag = Config.tagDataFormat.toNat then some (.again (i + 1) seconds hits)
  else loopHit b i seconds hits

/-- The body of R77's loop; none if it would read a word that does not exist. -/
def loopBody (b : Buffer) (i seconds hits : Nat) : Option LoopResult :=
  if b.wordCount ≤ i then some (.ended (.ok seconds hits))
  else
    match b.word i with
    | some word => loopCase b (word.toNat >>> 24) i seconds hits
    | none => none

/-- R77's loop, with fuel; none if the fuel runs out. -/
def decodeLoop (b : Buffer) : Nat → Nat → Nat → Nat → Option CallOutcome
  | 0, _, _, _ => none
  | fuel + 1, i, seconds, hits =>
    match loopBody b i seconds hits with
    | some (.again i' seconds' hits') => decodeLoop b fuel i' seconds' hits'
    | some (.ended o) => some o
    | none => none

/-- decode(buf, L) of R77. The loop runs at most word_count + 1 times (R76). -/
def referenceDecode (b : Buffer) : Option CallOutcome :=
  if b.len % 4 ≠ 0 then some (.malformedLength b.len) else decodeLoop b (b.wordCount + 1) 0 0 0

/-- Where the records start that the loop examines, with the tag of each header and, of a HIT whose count word exists, its
ADC nibble: all that an outcome depends on beside the length (R81). -/
def examined (b : Buffer) : Nat → Nat → List (Nat × Nat × Option Nat)
  | 0, _ => []
  | fuel + 1, i =>
    match loopBody b i 0 0, b.word i with
    | some r, some word =>
      let nibble := if i + 1 < b.wordCount then (b.word (i + 1)).map fun c => c.toNat >>> 28 &&& 0xF else none
      let entry := (i, word.toNat >>> 24, if isMarkerTag (tagOf word) then none else nibble)
      match r with
      | .again i' _ _ => entry :: examined b fuel i'
      | .ended _ => [entry]
    | _, _ => []

end Sys2Proof.Machine
end

