-- ==== Sys2Proof/Machine/FixedWidth.lean ====
section
/-!
DEFINITION. The fixed-width builds of spec/00_scope.md R6 and spec/70_reset_and_hazards.md R137: for any parameters p,
cursor and word_count in IDX_W bits, counters in CNT_W bits, byte length and read address in LEN_W bits, sums that wrap. A
build refuses a buffer longer than MAX_BYTES (D16, U7). It stands beside the natural-number machine (D4; log 8), with which
it must agree on every buffer it accepts.
-/
namespace Sys2Proof.Machine

/-- The registers of a call in a fixed-width build (10_state.md R10). -/
structure FixedRegs (p : Build) where
  i : BitVec p.idxW
  seconds : BitVec p.cntW
  hits : BitVec p.cntW
deriving DecidableEq, Repr

/-- The inputs of a call in a fixed-width build: the length on the port buf_len (R23), and the buffer behind the read
port. -/
structure FixedInput (p : Build) where
  len : BitVec p.lenW
  buf : Buffer
deriving DecidableEq, Repr

/-- The outcome of a call at the ports' widths: seconds_out and hits_out, err_length, err_index (R23). -/
inductive FixedOutcome (p : Build) where
  | ok (seconds hits : BitVec p.cntW)
  | malformedLength (length : BitVec p.lenW)
  | truncatedFrame (kind : Kind) (index : BitVec p.idxW)
deriving DecidableEq, Repr

/-- What a fixed-width step answers. -/
inductive FixedResult (p : Build) where
  | again (r : FixedRegs p)
  | ended (o : FixedOutcome p)
deriving DecidableEq, Repr

variable {p : Build}

/-- The numbers the ports show. -/
def FixedOutcome.value : FixedOutcome p → CallOutcome
  | .ok seconds hits => .ok seconds.toNat hits.toNat
  | .malformedLength length => .malformedLength length.toNat
  | .truncatedFrame kind index => .truncatedFrame kind index.toNat

/-- L <= MAX_BYTES (R6). -/
def fixedAccepts (p : Build) (b : Buffer) : Bool :=
  decide (b.len ≤ p.maxBytes)

/-- What the host drives for a buffer: its length in LEN_W bits (R23). -/
def fixedInput (p : Build) (b : Buffer) : FixedInput p :=
  { len := BitVec.ofNat p.lenW b.len, buf := b }

/-- L mod 4 = 0, of the LEN_W-bit length (R71, R84). -/
def fixedAligned (x : FixedInput p) : Bool :=
  x.len.toNat % Config.wordBytes == 0

/-- word_count = L / 4 in IDX_W bits (R71). -/
def fixedWordCount (x : FixedInput p) : BitVec p.idxW :=
  BitVec.ofNat p.idxW (x.len.toNat / Config.wordBytes)

/-- rd_addr: the byte offset 4 * k in LEN_W bits (R23, R46). -/
def fixedRdAddr (k : BitVec p.idxW) : BitVec p.lenW :=
  BitVec.ofNat p.lenW (wordOffset k.toNat)

/-- rd_data: the word at rd_addr (R23, R32). -/
def fixedRdData (x : FixedInput p) (k : BitVec p.idxW) : Option Word :=
  x.buf.memRead (fixedRdAddr k).toNat

/-- i + 1 < word_count with the sum in IDX_W bits (R137). -/
def fixedHasSecond {w : Nat} (i wc : BitVec w) : Bool :=
  (i + 1#w).ult wc

/-- extra in IDX_W bits. -/
def fixedExtra (w : Nat) (n : Nibble) : BitVec w :=
  BitVec.ofNat w (extraWords n)

/-- i + 2 + extra <= word_count with the sum in IDX_W bits (R137). -/
def fixedPayloadFits {w : Nat} (i wc extra : BitVec w) : Bool :=
  (i + 2#w + extra).ule wc

/-- i <- i + k in IDX_W bits (R82). -/
def FixedRegs.advance (k : BitVec p.idxW) (r : FixedRegs p) : FixedRegs p :=
  { r with i := r.i + k }

/-- seconds <- seconds + 1 in CNT_W bits (R85). -/
def FixedRegs.countSecond (r : FixedRegs p) : FixedRegs p :=
  { r with seconds := r.seconds + 1#p.cntW }

/-- hits <- hits + 1 in CNT_W bits (R100). -/
def FixedRegs.countHit (r : FixedRegs p) : FixedRegs p :=
  { r with hits := r.hits + 1#p.cntW }

/-- The HIT record in a fixed-width build (R95). -/
def fixedHit (x : FixedInput p) (r : FixedRegs p) : Option (FixedResult p) :=
  if fixedHasSecond r.i (fixedWordCount x) then
    (fixedRdData x (r.i + 1#p.idxW)).map fun c =>
      let extra := fixedExtra p.idxW (adcCountOf c)
      if fixedPayloadFits r.i (fixedWordCount x) extra then .again (r.countHit.advance (2#p.idxW + extra))
      else .ended (.truncatedFrame .hit r.i)
  else some (.ended (.truncatedFrame .hit r.i))

/-- The record under the cursor in a fixed-width build (R85 to R88, R95). -/
def fixedCase (x : FixedInput p) (kind : Kind) (r : FixedRegs p) : Option (FixedResult p) :=
  match kind with
  | .ppsSecond => some (.again (r.countSecond.advance 1#p.idxW))
  | .ppsYear => some (.again (r.advance 1#p.idxW))
  | .trigConfig =>
    if fixedHasSecond r.i (fixedWordCount x) then some (.again (r.advance 2#p.idxW))
    else some (.ended (.truncatedFrame .trigConfig r.i))
  | .dataFormat => some (.again (r.advance 1#p.idxW))
  | .hit => fixedHit x r

/-- One step of the scan in a fixed-width build (R72, R73). -/
def fixedBody (x : FixedInput p) (r : FixedRegs p) : Option (FixedResult p) :=
  if (fixedWordCount x).ule r.i then some (.ended (.ok r.seconds r.hits))
  else
    match fixedRdData x r.i with
    | some w => fixedCase x (kindOfTag (tagOf w)) r
    | none => none

/-- The scan of a fixed-width build, with fuel (log 17). -/
def fixedLoop (x : FixedInput p) : Nat → FixedRegs p → Option (FixedOutcome p)
  | 0, _ => none
  | fuel + 1, r =>
    match fixedBody x r with
    | some (.again r') => fixedLoop x fuel r'
    | some (.ended o) => some o
    | none => none

/-- A call of a fixed-width build: call entry (R71), then the scan. -/
def fixedCall (x : FixedInput p) : Option (FixedOutcome p) :=
  if fixedAligned x then
    fixedLoop x ((fixedWordCount x).toNat + 1) { i := 0#p.idxW, seconds := 0#p.cntW, hits := 0#p.cntW }
  else some (.malformedLength x.len)

/-- decode of a fixed-width build; none where the build gives no outcome (U7). -/
def fixedDecode (p : Build) (b : Buffer) : Option (FixedOutcome p) :=
  if fixedAccepts p b then fixedCall (fixedInput p b) else none

end Sys2Proof.Machine
end

