-- ==== Sys2Proof/Machine/Instances.lean ====
section
/-!
DEFINITION. Several decoder instances (spec/20_memory.md R45, spec/60_exceptions.md R121): N instances are N states, and
nothing is shared. A schedule says which instance steps next.
-/
namespace Sys2Proof.Machine

/-- One step of one machine, or the same state if the step answers none. -/
def stepOrStay (s : State) : State :=
  match step s with
  | .next t => t
  | .fault _ => s
  | .refused _ => s

/-- n steps of one machine on its own. -/
def runAlone : Nat → State → State
  | 0, s => s
  | n + 1, s => runAlone n (stepOrStay s)

/-- One step of instance k. -/
def stepInstance (k : Nat) (ss : List State) : List State :=
  ss.modify k stepOrStay

/-- The instances after a schedule of steps. -/
def runSchedule : List Nat → List State → List State
  | [], ss => ss
  | k :: ks, ss => runSchedule ks (stepInstance k ss)

end Sys2Proof.Machine
end

