-- ==== Sys2Proof/Machine/Record.lean ====
section
/-!
DEFINITION. Whole records as data, with every word of them (spec/30_encoding.md section 2 and R63), their encoder, and the
staged reader of R59. The machine does not use them: statements about streams of records do.
-/
namespace Sys2Proof.Machine

/-- A record with all its words (R50 to R52, R61, R63). -/
inductive Record where
  | ppsSecond (lo24 : Lo24)
  | ppsYear (lo24 : Lo24)
  | trigConfig (lo24 : Lo24) (cfg : Word)
  | dataFormat (lo24 : Lo24)
  | hit (tag : Tag) (lo24 : Lo24) (n : Nibble) (lo28 : Lo28) (payload : List Word)
deriving DecidableEq, Repr

/-- The instruction its header word is. -/
def Record.instr : Record → Instr
  | .ppsSecond lo24 => .ppsSecond lo24
  | .ppsYear lo24 => .ppsYear lo24
  | .trigConfig lo24 _ => .trigConfig lo24
  | .dataFormat lo24 => .dataFormat lo24
  | .hit tag lo24 _ _ _ => .hit tag lo24

/-- The words after the header. -/
def Record.tailWords : Record → List Word
  | .ppsSecond _ => []
  | .ppsYear _ => []
  | .trigConfig _ cfg => [cfg]
  | .dataFormat _ => []
  | .hit _ _ n lo28 payload => countWord n lo28 :: payload

/-- The words of a record, in stream order. -/
def Record.words (r : Record) : List Word :=
  encodeWord r.instr :: r.tailWords

/-- A well-formed record: a HIT's tag is no marker tag, and its payload has floor(n/2) words (R63). -/
def Record.wellFormed (r : Record) : Bool :=
  r.instr.wellFormed &&
    match r with
    | .hit _ _ n _ payload => payload.length == extraWords n
    | .ppsSecond _ => true
    | .ppsYear _ => true
    | .trigConfig _ _ => true
    | .dataFormat _ => true

/-- The records end to end, nothing between them (R50). -/
def streamWords : List Record → List Word
  | [] => []
  | r :: rs => r.words ++ streamWords rs

/-- The PPS_SECOND records of a list. -/
def secondsIn (rs : List Record) : Nat :=
  rs.countP fun r => r.instr.kind == .ppsSecond

/-- The HIT records of a list. -/
def hitsIn (rs : List Record) : Nat :=
  rs.countP fun r => r.instr.kind == .hit

/-- The HIT record whose header's fields are given, read from the words after the header (R59); none if they are too few. -/
def readHitTail (tag : Tag) (lo24 : Lo24) : List Word → Option (Record × List Word)
  | [] => none
  | c :: rest =>
    let extra := extraWords (adcCountOf c)
    if extra ≤ rest.length then
      some (.hit tag lo24 (adcCountOf c) (lo28Of c) (rest.take extra), rest.drop extra)
    else none

/-- The record a header begins, read from the words after it; none if they are too few (R59). -/
def readTail : Instr → List Word → Option (Record × List Word)
  | .ppsSecond lo24, ws => some (.ppsSecond lo24, ws)
  | .ppsYear lo24, ws => some (.ppsYear lo24, ws)
  | .trigConfig lo24, cfg :: ws => some (.trigConfig lo24 cfg, ws)
  | .trigConfig _, [] => none
  | .dataFormat lo24, ws => some (.dataFormat lo24, ws)
  | .hit tag lo24, ws => readHitTail tag lo24 ws

/-- The first record of a word stream and the words after it; none if the stream ends first. -/
def readRecord : List Word → Option (Record × List Word)
  | [] => none
  | w :: ws => readTail (decodeWord w) ws

end Sys2Proof.Machine
end

