-- ==== Sys2Proof/Machine/Ports.lean ====
section
/-!
DEFINITION. What the host sees: the output ports of spec/10_state.md R23 and the outcome of a call (R21, R70;
spec/60_exceptions.md R108). A port that is not valid has no value here, not a zero (R21, R136).
-/
namespace Sys2Proof.Machine

/-- The kind codes of R53, R108 (D7). -/
def kindCode : Kind → BitVec 3
  | .ppsSecond => 0
  | .ppsYear => 1
  | .trigConfig => 2
  | .dataFormat => 3
  | .hit => 4

/-- The cause codes of R108 (D5); 0 means none and is never seen in FAULT (R16). -/
def causeCode : Option Err → BitVec 2
  | none => 0
  | some (.malformedLength _) => 1
  | some (.truncatedFrame _ _) => 2

/-- The output ports. -/
structure Ports where
  done : Bool
  fault : Bool
  secondsOut : Option Nat
  hitsOut : Option Nat
  errCause : Option (BitVec 2)
  errKind : Option (BitVec 3)
  errIndex : Option Nat
  errLength : Option Nat
deriving DecidableEq, Repr

/-- The error record as the host may read it: in FAULT only (R16, R136). -/
def State.visibleErr (s : State) : Option Err :=
  match s.phase with
  | .idle => none
  | .scan => none
  | .done => none
  | .fault => s.err

/-- The ports with no value on any of them. -/
def Ports.silent : Ports :=
  { done := false, fault := false, secondsOut := none, hitsOut := none,
    errCause := none, errKind := none, errIndex := none, errLength := none }

/-- The error ports (R23): err_cause while `fault`, the others by cause. -/
def errPorts : Option Err → Ports
  | none => Ports.silent
  | some (.malformedLength l) =>
    { Ports.silent with errCause := some (causeCode (some (.malformedLength l))), errLength := some l }
  | some (.truncatedFrame k ix) =>
    { Ports.silent with
      errCause := some (causeCode (some (.truncatedFrame k ix))), errKind := some (kindCode k), errIndex := some ix }

/-- The output ports of a state (R23). -/
def State.ports (s : State) : Ports :=
  match s.phase with
  | .idle => Ports.silent
  | .scan => Ports.silent
  | .done => { Ports.silent with done := true, secondsOut := some s.seconds, hitsOut := some s.hits }
  | .fault => { errPorts s.err with fault := true }

/-- The outcome a state shows (R70): Ok in DONE, the error in FAULT, none before a call is over. -/
def State.outcome (s : State) : Option CallOutcome :=
  match s.phase with
  | .idle => none
  | .scan => none
  | .done => some (.ok s.seconds s.hits)
  | .fault =>
    match s.err with
    | none => none
    | some (.malformedLength l) => some (.malformedLength l)
    | some (.truncatedFrame k ix) => some (.truncatedFrame k ix)

/-- The words a record's step reads (R37): its header, and the count word of a HIT whose first check passes. -/
def instrReads (i : Instr) (s : State) : List Nat :=
  match i with
  | .ppsSecond _ => [s.i]
  | .ppsYear _ => [s.i]
  | .trigConfig _ => [s.i]
  | .dataFormat _ => [s.i]
  | .hit _ _ => if hasSecondWord s then [s.i, s.i + 1] else [s.i]

/-- The words a step in SCAN reads. -/
def scanReads (s : State) : List Nat :=
  if endOfScan s then []
  else
    match fetchInstr s with
    | some i => instrReads i s
    | none => [s.i]

/-- The words the next step reads, in order (R37). -/
def stepReads (s : State) : List Nat :=
  match s.phase, s.start with
  | .scan, none => scanReads s
  | .scan, some _ => []
  | .idle, _ => []
  | .done, _ => []
  | .fault, _ => []

/-- The port rd_addr over the next step: the byte offset of each word it reads (R23, R46). -/
def State.rdAddr (s : State) : List Nat :=
  (stepReads s).map wordOffset

/-- The port rd_data over the next step: each word it reads, big-endian (R23, R32). -/
def State.rdData (s : State) : List (Option Word) :=
  (stepReads s).map s.buf.word

/-- The words the next steps read, in order, until one answers no next state. -/
def runReads : Nat → State → List Nat
  | 0, _ => []
  | n + 1, s =>
    stepReads s ++
      match step s with
      | .next t => runReads n t
      | .fault _ => []
      | .refused _ => []

end Sys2Proof.Machine
end

