-- ==== Sys2Proof/Safety.lean ====
section
/-!
DEFINITION. What statements call a safe state and a call's run (spec/10_state.md R16, R24, R25 and section 6).
-/
namespace Sys2Proof.Machine

/-- The counters and the cursor (R24, R25): seconds + 2 * hits <= i <= word_count. -/
def State.CountsFit (s : State) : Prop :=
  s.seconds + 2 * s.hits ≤ s.i ∧ s.i ≤ s.buf.wordCount

/-- In SCAN: a length that passed the check, no error, the counters and the cursor in range (R15, R24). -/
def State.ScanOk (s : State) : Prop :=
  s.buf.aligned = true ∧ s.err = none ∧ s.CountsFit

/-- In DONE: as in SCAN, and the cursor at the end (R15, R24, 10_state.md section 6). -/
def State.DoneOk (s : State) : Prop :=
  s.ScanOk ∧ s.i = s.buf.wordCount

/-- In FAULT: err says which error (R16). After MalformedLength it holds the rejected length, and the cursor has no value;
after TruncatedFrame it holds a kind that can be truncated and the cursor, which is on a header that exists. -/
def State.FaultOk (s : State) : Prop :=
  match s.err with
  | none => False
  | some (.malformedLength l) => l = s.buf.len ∧ s.buf.aligned = false
  | some (.truncatedFrame k ix) =>
    s.buf.aligned = true ∧ (k = .trigConfig ∨ k = .hit) ∧ ix = s.i ∧ ix < s.buf.wordCount ∧ s.CountsFit

/-- What each phase promises. -/
def State.PhaseOk (s : State) : Prop :=
  match s.phase with
  | .idle => s.err = none
  | .scan => s.ScanOk
  | .done => s.DoneOk
  | .fault => s.FaultOk

/-- The invariant: canonical buffers, and what the phase promises. -/
def State.Inv (s : State) : Prop :=
  s.buf.wf = true ∧ (∀ b, s.start = some b → b.wf = true) ∧ s.PhaseOk

/-- A scan in progress that no start disturbs, with a record under the cursor: where an instruction runs (R74). -/
def State.Scanning (s : State) : Prop :=
  s.phase = .scan ∧ s.start = none ∧ s.i < s.buf.wordCount

/-- n steps; none if one of them answers no next state. -/
def runSteps : Nat → State → Option State
  | 0, s => some s
  | n + 1, s =>
    match step s with
    | .next t => runSteps n t
    | .fault _ => none
    | .refused _ => none

/-- The outcome the host sees when it lends a buffer to an instance and lets it make n steps. -/
def callOutcome (n : Nat) (s : State) (b : Buffer) : Option CallOutcome :=
  match runSteps n (s.present b) with
  | some t => t.outcome
  | none => none

/-- As many steps as any call over the buffer takes: the call entry, at most word_count records, the return (R76, R139). -/
def callSteps (b : Buffer) : Nat :=
  b.wordCount + 2

/-- The outcome of a call over a buffer of these bytes, on an instance fresh from reset, after as many steps as any call
takes. -/
def outcomeOf (bytes : List Byte) : Option CallOutcome :=
  callOutcome (callSteps (Buffer.ofBytes bytes)) State.reset (Buffer.ofBytes bytes)

/-- As `outcomeOf`, over a buffer of these words (R32). -/
def outcomeOfWords (words : List Word) : Option CallOutcome :=
  outcomeOf (bytesOfWords words)

end Sys2Proof.Machine
end

