-- ==== Sys2Proof/Certificates/Slice0/Obligations.lean ====
section
/-!
DEFINITION. The statements for the provers, one per obligation of OBLIGATIONS.json. Each docstring names the rule or the
sentence of spec/ it formalises, and the log entry it rests on where it rests on a choice.
-/

open Sys2Proof Sys2Proof.Machine

/-! ### Reset and the call -/

/-- Power-on: phase IDLE, no error, no call asked for, and no value at any port (R131, D9). The registers' own reset values
are the model's DESIGN CHOICE (log 5) and are not stated. -/
def Obligations.ResetShowsNothing : Prop :=
  State.reset.phase = .idle ∧ State.reset.err = none ∧ State.reset.start = none ∧
    State.reset.ports = Ports.silent ∧ State.reset.outcome = none

/-- Call entry as R71 has it (40_scan_control.md section 2): a length that is no multiple of 4 is rejected before any read;
any other begins the scan at word 0 with both counters 0. That one step takes the pending start and is the whole call entry
is the model's choice (log 2, log 13). -/
def Obligations.CallEntryChecksLengthThenClears : Prop :=
  ∀ (s : State) (b : Buffer), s.phase ≠ .scan → s.start = some b →
    (b.len % 4 ≠ 0 → ∃ t, step s = .next t ∧ t.phase = .fault ∧ t.err = some (.malformedLength b.len) ∧
      t.outcome = some (.malformedLength b.len) ∧ t.start = none ∧ stepReads s = []) ∧
    (b.len % 4 = 0 →
      step s = .next { s with phase := .scan, i := 0, seconds := 0, hits := 0, err := none, buf := b, start := none } ∧
      stepReads s = [] ∧ b.wordCount = b.len / 4)

/-- R20: the outcome of a call does not depend on what the instance held before, after any number of steps; that the call
entry is the first of these steps is the model's choice (log 2, log 13). -/
def Obligations.CallForgetsThePast : Prop :=
  ∀ (n : Nat) (s s' : State) (b : Buffer), s.phase ≠ .scan → s'.phase ≠ .scan →
    callOutcome (n + 1) s b = callOutcome (n + 1) s' b

/-- With no start pending, a step in IDLE, DONE or FAULT answers the same state. This is the model's reading (log 2, DEDUCED)
of 60_exceptions.md R123, "the instance simply does nothing until the next call", beside 40_scan_control.md R75, by which
DONE and FAULT have no step. -/
def Obligations.NothingHappensBetweenCalls : Prop :=
  ∀ s : State, s.phase ≠ .scan → s.start = none → step s = .next s

/-- The model's choice (log 3; U12: `refuse`, D11): a start raised during SCAN has no move. -/
def Obligations.StartDuringScanIsRefused : Prop :=
  ∀ (s : State) (b : Buffer), s.phase = .scan → s.start = some b → step s = .refused .startDuringScan

/-- R72, whole: at or past the last word the scan returns the counters it has, reading nothing; before it, the word under
the cursor exists; and where the cursor is in range, the test fires exactly at the end. -/
def Obligations.EndOfScanReturnsCounters : Prop :=
  ∀ s : State, s.phase = .scan → s.start = none →
    (s.buf.wordCount ≤ s.i →
      step s = .next { s with phase := .done } ∧ stepReads s = [] ∧
      State.outcome { s with phase := .done } = some (.ok s.seconds s.hits)) ∧
    (s.i < s.buf.wordCount → ∃ w, s.buf.word s.i = some w) ∧
    (s.CountsFit → (s.buf.wordCount ≤ s.i ↔ s.i = s.buf.wordCount))

/-- R73, R74: where a record is under the cursor, a step is `exec` of the instruction its four header bytes decode to, and
nothing is added around it. -/
def Obligations.StepRunsTheDecodedInstruction : Prop :=
  ∀ (s : State) (b0 b1 b2 b3 : Byte) (i : Instr), s.Scanning →
    s.buf.byte (4 * s.i) = some b0 → s.buf.byte (4 * s.i + 1) = some b1 →
    s.buf.byte (4 * s.i + 2) = some b2 → s.buf.byte (4 * s.i + 3) = some b3 →
    decodeBytes [b0, b1, b2, b3] = .ok (i, []) → step s = exec i s

/-- The host's placement (log 12): whatever state it starts from, the next step runs the instruction the decoder reads from
the table word. -/
def Obligations.PlacedInstructionIsTheOneThatRuns : Prop :=
  ∀ (s : State) (nbits w : Nat) (i : Instr), s.buf.wf = true → decodeTableWord nbits w = some i →
    step (s.withFetchWord nbits w) = exec i (s.withFetchWord nbits w) ∧ (s.withFetchWord nbits w).Scanning

/-! ### Encoding -/

/-- Every well-formed instruction is read back from its header bytes, whatever follows them (R51, R53). -/
def Obligations.DecodeOfEncodeIsTheInstruction : Prop :=
  ∀ (i : Instr) (rest : List Byte), i.wellFormed = true → decodeBytes (encode i ++ rest) = .ok (i, rest)

/-- Every word is the header word of the instruction it decodes to, and that instruction is well-formed (R51, R54). -/
def Obligations.EncodeOfDecodeIsTheWord : Prop :=
  ∀ w : Word, encodeWord (decodeWord w) = w ∧ (decodeWord w).wellFormed = true

/-- The tag map, by the document's literals (R53, R54). -/
def Obligations.TagMapIsTotalAndExact : Prop :=
  ∀ t : Tag,
    (kindOfTag t = .ppsSecond ↔ t = 0xE0) ∧ (kindOfTag t = .ppsYear ↔ t = 0xE4) ∧
    (kindOfTag t = .trigConfig ↔ t = 0xE5) ∧ (kindOfTag t = .dataFormat ↔ t = 0xE6) ∧
    (kindOfTag t = .hit ↔ t ≠ 0xE0 ∧ t ≠ 0xE4 ∧ t ≠ 0xE5 ∧ t ≠ 0xE6)

/-- The twelve rows of the opcode table tile the header words: each is of exactly one row, the row of its kind (R65). -/
def Obligations.TableRowsTileTheHeaderWords : Prop :=
  ∀ w : Word, ∃ r, tableRows.filter (fun q => q.covers w) = [r] ∧ r.kind = (decodeWord w).kind

/-- Header words written out in 95_test_vectors.md P1 and V16 decode to the records they stand for. -/
def Obligations.WrittenOutHeadersDecode : Prop :=
  decodeBytes [0xE0, 0x12, 0x34, 0x56] = .ok (.ppsSecond 0x123456, []) ∧
  decodeBytes [0xE4, 0x00, 0x00, 0x07] = .ok (.ppsYear 0x000007, []) ∧
  decodeBytes [0xE5, 0x00, 0x00, 0x01] = .ok (.trigConfig 0x000001, []) ∧
  decodeBytes [0xE6, 0x00, 0x00, 0x02] = .ok (.dataFormat 0x000002, []) ∧
  decodeBytes [0x01, 0xAB, 0xCD, 0xEF] = .ok (.hit 0x01 0xABCDEF, []) ∧
  decodeBytes [0xE1, 0x00, 0x00, 0x00] = .ok (.hit 0xE1 0x000000, [])

/-- Fewer than four bytes are no header word (R33). -/
def Obligations.PartialWordIsRejected : Prop :=
  ∀ bytes : List Byte, bytes.length < 4 → decodeBytes bytes = .error (.partialWord bytes.length)

/-- A whole record, payload included, is read back from its words, whatever follows them (R50 to R52, R59, R61). -/
def Obligations.RecordIsReadBackFromItsWords : Prop :=
  ∀ (r : Record) (rest : List Word), r.wellFormed = true → readRecord (r.words ++ rest) = some (r, rest)

/-- What is read as a record is well-formed and is exactly the words it was read from (R50, R59). -/
def Obligations.RecordReadIsTheWordsRead : Prop :=
  ∀ (ws rest : List Word) (r : Record), readRecord ws = some (r, rest) → r.wellFormed = true ∧ r.words ++ rest = ws

/-- extra is the top three bits of the count word; bit 28 does not affect it (R58). -/
def Obligations.PayloadLengthIsTopThreeBits : Prop :=
  ∀ c : Word, extraWords (adcCountOf c) = (c.extractLsb' 29 3).toNat ∧ extraWords (adcCountOf c) ≤ 7

/-! ### The buffer -/

/-- R32: a word is its four bytes, the lowest offset most significant; the tag is the first byte, the ADC-channel count its
high nibble. -/
def Obligations.WordsAreBigEndian : Prop :=
  ∀ (b : Buffer) (k : Nat), k < b.wordCount →
    ∃ (b0 b1 b2 b3 : Byte) (w : Word),
      b.byte (4 * k) = some b0 ∧ b.byte (4 * k + 1) = some b1 ∧
      b.byte (4 * k + 2) = some b2 ∧ b.byte (4 * k + 3) = some b3 ∧ b.word k = some w ∧
      w.toNat = b0.toNat * 2 ^ 24 + b1.toNat * 2 ^ 16 + b2.toNat * 2 ^ 8 + b3.toNat ∧
      tagOf w = b0 ∧ (adcCountOf w).toNat = b0.toNat / 16

/-- The canonical form (log 1): buffers of equal length and equal bytes are equal data. -/
def Obligations.CanonicalBuffersWithEqualBytesAreEqual : Prop :=
  ∀ b b' : Buffer, b.wf = true → b'.wf = true → b.len = b'.len → (∀ a, b.byte a = b'.byte a) → b = b'

/-- R35: no step reads past the end of the buffer, in any state: the memory primitive's fault is unreachable, and every word
a step reads has its four bytes in the buffer. -/
def Obligations.NoStepReadsPastTheEnd : Prop :=
  ∀ s : State, (∀ r, step s ≠ .fault r) ∧ ∀ k ∈ stepReads s, k < s.buf.wordCount ∧ 4 * k + 3 < s.buf.len

/-- R37: a step in SCAN depends on the buffer only through its length and the words it reads: over any other buffer with
these it does the same. -/
def Obligations.StepDependsOnlyOnTheWordsItReads : Prop :=
  ∀ (s t : State) (b : Buffer), s.phase = .scan → b.len = s.buf.len →
    (∀ k ∈ stepReads s, b.word k = s.buf.word k) → step s = .next t →
    step { s with buf := b } = .next { t with buf := b } ∧ stepReads { s with buf := b } = stepReads s

/-- R41, R138: the words a scan reads, over any number of steps, strictly increase from the cursor on and stay below
word_count: none is read twice, none backwards. -/
def Obligations.ReadsOnlyMoveForward : Prop :=
  ∀ (n : Nat) (s : State), s.phase = .scan → s.start = none →
    (runReads n s).Pairwise (· < ·) ∧ ∀ k ∈ runReads n s, s.i ≤ k ∧ k < s.buf.wordCount

/-- R36, R38: no step in SCAN changes the buffer, a byte of it, or its length; nor the input port. -/
def Obligations.ScanNeverWritesTheBuffer : Prop :=
  ∀ s t : State, s.phase = .scan → step s = .next t →
    t.buf = s.buf ∧ (∀ a, t.buf.byte a = s.buf.byte a) ∧ t.start = s.start ∧ t.draws = s.draws

/-! ### The records -/

/-- R85, whole: PPS_SECOND adds 1 to seconds and to the cursor, in every state; under the cursor, any header {0xE0, lo24} is
it, and nothing but the header is read. -/
def Obligations.PpsSecondCountsAndAdvances : Prop :=
  (∀ (lo24 : Lo24) (s : State),
    exec (.ppsSecond lo24) s = .next { s with seconds := s.seconds + 1, i := s.i + 1 }) ∧
  (∀ (lo24 : Lo24) (s : State), s.Scanning → s.buf.word s.i = some (0xE0#8 ++ lo24) →
    step s = exec (.ppsSecond lo24) s ∧ stepReads s = [s.i])

/-- R86, whole: PPS_YEAR adds 1 to the cursor and changes nothing else, in every state; under the cursor, any header
{0xE4, lo24} is it, and nothing but the header is read. -/
def Obligations.PpsYearOnlyAdvances : Prop :=
  (∀ (lo24 : Lo24) (s : State), exec (.ppsYear lo24) s = .next { s with i := s.i + 1 }) ∧
  (∀ (lo24 : Lo24) (s : State), s.Scanning → s.buf.word s.i = some (0xE4#8 ++ lo24) →
    step s = exec (.ppsYear lo24) s ∧ stepReads s = [s.i])

/-- R87, whole: TRIG_CONFIG steps over two words and changes nothing else if the second exists, and is
TruncatedFrame(TRIG_CONFIG, i) if its header is the last word; the configuration word is not read. -/
def Obligations.TrigConfigStepsOverTwoWords : Prop :=
  (∀ (lo24 : Lo24) (s : State), s.i + 1 < s.buf.wordCount →
    exec (.trigConfig lo24) s = .next { s with i := s.i + 2 }) ∧
  (∀ (lo24 : Lo24) (s : State), s.buf.wordCount ≤ s.i + 1 →
    exec (.trigConfig lo24) s =
      .next { s with phase := .fault, err := some (.truncatedFrame .trigConfig s.i) }) ∧
  (∀ (lo24 : Lo24) (s : State), s.Scanning → s.buf.word s.i = some (0xE5#8 ++ lo24) →
    step s = exec (.trigConfig lo24) s ∧ stepReads s = [s.i])

/-- R88, whole: DATA_FORMAT adds 1 to the cursor and changes nothing else, in every state; under the cursor, any header
{0xE6, lo24} is it and not a HIT, and nothing but the header is read. -/
def Obligations.DataFormatOnlyAdvances : Prop :=
  (∀ (lo24 : Lo24) (s : State), exec (.dataFormat lo24) s = .next { s with i := s.i + 1 }) ∧
  (∀ (lo24 : Lo24) (s : State), s.Scanning → s.buf.word s.i = some (0xE6#8 ++ lo24) →
    step s = exec (.dataFormat lo24) s ∧ stepReads s = [s.i])

/-- R95, whole, with its parts R98, R99, R100. A HIT whose count word n:lo28 and floor(n/2) payload words fit, an exact fit
included, adds 1 to hits and 2 + floor(n/2) to the cursor and changes nothing else; with no count word, or with one that asks
for more payload than there is, it is TruncatedFrame(HIT, i): nothing is counted and the cursor stays. Under the cursor, any
header whose tag is none of the four marker tags is it; the header is read, and the count word only where there is one. -/
def Obligations.HitCountsAndStepsOverItsPayload : Prop :=
  (∀ (tag : Tag) (lo24 : Lo24) (n : Nibble) (lo28 : Lo28) (s : State),
    s.buf.word (s.i + 1) = some (n ++ lo28) → s.i + 2 + n.toNat / 2 ≤ s.buf.wordCount →
    exec (.hit tag lo24) s = .next { s with hits := s.hits + 1, i := s.i + 2 + n.toNat / 2 }) ∧
  (∀ (tag : Tag) (lo24 : Lo24) (s : State), s.buf.wordCount ≤ s.i + 1 →
    exec (.hit tag lo24) s = .next { s with phase := .fault, err := some (.truncatedFrame .hit s.i) }) ∧
  (∀ (tag : Tag) (lo24 : Lo24) (n : Nibble) (lo28 : Lo28) (s : State),
    s.buf.word (s.i + 1) = some (n ++ lo28) → s.buf.wordCount < s.i + 2 + n.toNat / 2 →
    exec (.hit tag lo24) s = .next { s with phase := .fault, err := some (.truncatedFrame .hit s.i) }) ∧
  (∀ (tag : Tag) (lo24 : Lo24) (s : State), tag ≠ 0xE0 → tag ≠ 0xE4 → tag ≠ 0xE5 → tag ≠ 0xE6 →
    s.Scanning → s.buf.word s.i = some (tag ++ lo24) →
    step s = exec (.hit tag lo24) s ∧
    (s.i + 1 < s.buf.wordCount → stepReads s = [s.i, s.i + 1]) ∧
    (s.buf.wordCount ≤ s.i + 1 → stepReads s = [s.i]))

/-- The frame of the markers (R85 to R88): hits, the buffer and every byte of it, the input port stay; seconds stays but for
PPS_SECOND; phase and err stay, unless a TRIG_CONFIG is truncated, and then the cursor stays. -/
def Obligations.MarkersChangeNothingElse : Prop :=
  ∀ (i : Instr) (s t : State), i.kind ≠ .hit → exec i s = .next t →
    t.hits = s.hits ∧ (i.kind ≠ .ppsSecond → t.seconds = s.seconds) ∧
    t.buf = s.buf ∧ (∀ a, t.buf.byte a = s.buf.byte a) ∧ t.start = s.start ∧ t.draws = s.draws ∧
    (t.phase = s.phase ∧ t.err = s.err ∨
      i.kind = .trigConfig ∧ t.phase = .fault ∧ t.err = some (.truncatedFrame .trigConfig s.i) ∧ t.i = s.i)

/-- The frame of HIT (R95, R100): seconds, the buffer and every byte of it, the input port stay; phase and err stay unless
it is truncated, and then hits and the cursor stay. -/
def Obligations.HitChangesNothingElse : Prop :=
  ∀ (i : Instr) (s t : State), i.kind = .hit → exec i s = .next t →
    t.seconds = s.seconds ∧ t.buf = s.buf ∧ (∀ a, t.buf.byte a = s.buf.byte a) ∧
    t.start = s.start ∧ t.draws = s.draws ∧
    (t.phase = s.phase ∧ t.err = s.err ∨
      t.phase = .fault ∧ t.err = some (.truncatedFrame .hit s.i) ∧ t.hits = s.hits ∧ t.i = s.i)

/-- R57: a step that stays in SCAN moves the cursor by the width of the record under it: 1, 1, 2, 1, or 2 + floor(n/2) where
n is the top nibble of the word after the header. -/
def Obligations.CursorMovesByTheRecordWidth : Prop :=
  (∀ n : Nibble, width .ppsSecond n = 1 ∧ width .ppsYear n = 1 ∧ width .trigConfig n = 2 ∧
    width .dataFormat n = 1 ∧ width .hit n = 2 + n.toNat / 2) ∧
  (∀ (s t : State) (w : Word), s.Scanning → s.buf.word s.i = some w → step s = .next t → t.phase = .scan →
    ∃ n : Nibble, t.i = s.i + width (kindOfTag (tagOf w)) n ∧
      (kindOfTag (tagOf w) = .hit → (s.buf.word (s.i + 1)).map adcCountOf = some n))

/-- R11, R12: in SCAN only a PPS_SECOND header under the cursor changes seconds, and only a HIT changes hits, each by 1. -/
def Obligations.OnlyItsRecordMovesACounter : Prop :=
  ∀ s t : State, s.phase = .scan → step s = .next t →
    (t.seconds ≠ s.seconds → t.seconds = s.seconds + 1 ∧ ∃ w, s.buf.word s.i = some w ∧ tagOf w = 0xE0) ∧
    (t.hits ≠ s.hits → t.hits = s.hits + 1 ∧
      ∃ w, s.buf.word s.i = some w ∧ tagOf w ≠ 0xE0 ∧ tagOf w ≠ 0xE4 ∧ tagOf w ≠ 0xE5 ∧ tagOf w ≠ 0xE6)

/-! ### Errors -/

/-- R107: where a record is under the cursor, the step ends in FAULT at exactly three sites: a TRIG_CONFIG header that is
the last word (T1), a HIT header that is the last word (T2), a HIT whose payload does not fit (T3); T2 and T3 are told apart
by the index. -/
def Obligations.TruncationHasExactlyThreeSites : Prop :=
  ∀ (s : State) (w : Word), s.Scanning → s.buf.word s.i = some w →
    ((∃ t, step s = .next t ∧ t.phase = .fault) ↔
      (kindOfTag (tagOf w) = .trigConfig ∧ s.buf.wordCount ≤ s.i + 1) ∨
      (kindOfTag (tagOf w) = .hit ∧ s.buf.wordCount ≤ s.i + 1) ∨
      (kindOfTag (tagOf w) = .hit ∧ s.i + 1 < s.buf.wordCount ∧
        ∃ c, s.buf.word (s.i + 1) = some c ∧ s.buf.wordCount < s.i + 2 + (adcCountOf c).toNat / 2)) ∧
    (∀ t, step s = .next t → t.phase = .fault →
      t.err = some (.truncatedFrame (kindOfTag (tagOf w)) s.i) ∧
      (s.buf.wordCount ≤ s.i + 1 ↔ s.i = s.buf.wordCount - 1))

/-- R110, R111, R113: a step that ends a scan in FAULT records the record's kind and the cursor, shows the error and no
counts, and changes nothing else; it read no word past the header and the count word. -/
def Obligations.TruncationIsPrecise : Prop :=
  ∀ s t : State, s.phase = .scan → step s = .next t → t.phase = .fault →
    ∃ k, (k = .trigConfig ∨ k = .hit) ∧
      t = { s with phase := .fault, err := some (.truncatedFrame k s.i) } ∧
      t.outcome = some (.truncatedFrame k s.i) ∧ t.ports.secondsOut = none ∧ t.ports.hitsOut = none ∧
      ∀ r ∈ stepReads s, r = s.i ∨ k = .hit ∧ r = s.i + 1

/-- R33, R106: a length that is no multiple of 4 always ends the call with MalformedLength, whatever the bytes, and no word
is read, over any number of steps. -/
def Obligations.UnalignedLengthIsMalformed : Prop :=
  ∀ (bytes : List Byte) (n : Nat), bytes.length % 4 ≠ 0 →
    outcomeOf bytes = some (.malformedLength bytes.length) ∧
    runReads n (State.reset.present (Buffer.ofBytes bytes)) = []

/-- The spec's own codes (R108, R53; decisions D5, D7): causes 1 and 2, kinds 2 and 4, each beside its fields and no
others. -/
def Obligations.ErrorPortsCarryTheCodes : Prop :=
  (∀ (s : State) (l : Nat), s.phase = .fault → s.err = some (.malformedLength l) →
    s.ports.fault = true ∧ s.ports.done = false ∧ s.ports.errCause = some 1 ∧ s.ports.errLength = some l ∧
      s.ports.errKind = none ∧ s.ports.errIndex = none) ∧
  (∀ (s : State) (k : Kind) (ix : Nat), s.phase = .fault → s.err = some (.truncatedFrame k ix) →
    s.ports.fault = true ∧ s.ports.done = false ∧ s.ports.errCause = some 2 ∧ s.ports.errIndex = some ix ∧
      s.ports.errLength = none ∧ s.ports.errKind = some (kindCode k)) ∧
  kindCode .ppsSecond = 0 ∧ kindCode .ppsYear = 1 ∧ kindCode .trigConfig = 2 ∧ kindCode .dataFormat = 3 ∧
    kindCode .hit = 4

/-- R21, R136 (decisions D2, D8): the counts show exactly in DONE, an error field only in FAULT, and the two levels say the
phase. -/
def Obligations.PortsShowOnlyWhatIsValid : Prop :=
  ∀ s : State,
    (∀ x, s.ports.secondsOut = some x ↔ s.phase = .done ∧ x = s.seconds) ∧
    (∀ x, s.ports.hitsOut = some x ↔ s.phase = .done ∧ x = s.hits) ∧
    (s.ports.done = true ↔ s.phase = .done) ∧ (s.ports.fault = true ↔ s.phase = .fault) ∧
    (s.phase ≠ .fault →
      s.ports.errCause = none ∧ s.ports.errKind = none ∧ s.ports.errIndex = none ∧ s.ports.errLength = none)

/-! ### Invariants and progress -/

/-- Every step that answers a next state keeps the invariant (R15, R16, R24, R25): canonical buffers; in SCAN and DONE an
aligned length and seconds + 2 * hits <= i <= word_count; in DONE the cursor at the end; in FAULT an error that fits. -/
def Obligations.EveryStepKeepsTheInvariant : Prop :=
  ∀ s t : State, s.Inv → step s = .next t → t.Inv

/-- The reset state meets the invariant. -/
def Obligations.ResetMeetsTheInvariant : Prop :=
  State.reset.Inv

/-- The host's move keeps the invariant, for every buffer of bytes: a call can be asked for in any state that meets it. -/
def Obligations.LendingABufferKeepsTheInvariant : Prop :=
  ∀ (s : State) (bytes : List Byte), s.Inv → (s.present (Buffer.ofBytes bytes)).Inv

/-- R24's consequences: no counter passes word_count, and with the parameters of any fixed-width build that meets the
constraints of R6, length, cursor and counters fit their widths in every buffer up to MAX_BYTES. -/
def Obligations.CountersNeverOverflow : Prop :=
  ∀ s : State, s.Inv → (s.phase = .scan ∨ s.phase = .done) →
    s.seconds ≤ s.buf.wordCount ∧ s.hits ≤ s.buf.wordCount / 2 ∧
    ∀ p : Build, p.Valid → s.buf.len ≤ p.maxBytes →
      s.buf.len < 2 ^ p.lenW ∧ s.i < 2 ^ p.idxW ∧ s.seconds < 2 ^ p.cntW ∧ s.hits < 2 ^ p.cntW

/-- R76, whole: every step of a scan answers a next state, and ends the call or moves the cursor forward without passing
word_count; so from a cursor in range the call ends within the words that remain and the return. -/
def Obligations.EveryScanEndsByProgress : Prop :=
  ∀ s : State, s.phase = .scan → s.start = none →
    (∃ t, step s = .next t ∧
      (t.phase = .done ∨ t.phase = .fault ∨ t.phase = .scan ∧ s.i < t.i ∧ t.i ≤ s.buf.wordCount)) ∧
    (s.i ≤ s.buf.wordCount →
      ∃ t, runSteps (s.buf.wordCount - s.i + 1) s = some t ∧ (t.phase = .done ∨ t.phase = .fault))

/-- R77, R70: on any instance that is not scanning, and over any buffer, the machine's call ends, within word_count records
and the return after the call entry (R76, R139), with the outcome of the reference function, which has one for every
buffer. That the call entry counts as one step is the model's choice (log 2, log 13). -/
def Obligations.MachineComputesTheReferenceFunction : Prop :=
  ∀ (s : State) (b : Buffer), s.phase ≠ .scan →
    callOutcome (callSteps b) s b = referenceDecode b ∧ (referenceDecode b).isSome = true

/-- R81, R56: the outcome depends only on the length, on the tags of the examined headers and on the ADC nibbles of the
HIT count words: buffers that agree in these agree after any number of steps. -/
def Obligations.IgnoredBitsNeverMatter : Prop :=
  ∀ (b b' : Buffer) (n : Nat) (s : State), s.phase ≠ .scan → b.len = b'.len →
    examined b (b.wordCount + 1) 0 = examined b' (b'.wordCount + 1) 0 →
    callOutcome (n + 1) s b = callOutcome (n + 1) s b'

/-! ### The fixed-width builds (R6, R137; log 8) -/

/-- R6's default parameters, and the constraints: they hold for the build with every default, and for every IDX_W of at
least 3 bits and CNT_W >= IDX_W with LEN_W and MAX_BYTES at their defaults. -/
def Obligations.DefaultBuildsMeetTheConstraints : Prop :=
  Build.default = { idxW := 32, cntW := 32, lenW := 34, maxBytes := 4 * (2 ^ 32 - 8) } ∧ Build.default.Valid ∧
  ∀ w c : Nat, 3 ≤ w → w ≤ c →
    ({ idxW := w, cntW := c, lenW := w + 2, maxBytes := 4 * (2 ^ w - 8) } : Build).Valid

/-- R137: in a build of any IDX_W with word_count + 7 < 2^IDX_W the wrapping sums of the two bounds tests give what naturals
give. -/
def Obligations.FixedWidthBoundsTestsAreExact : Prop :=
  ∀ (w i wc : Nat) (n : Nibble), wc + 7 < 2 ^ w → i < wc →
    fixedHasSecond (BitVec.ofNat w i) (BitVec.ofNat w wc) = decide (i + 1 < wc) ∧
    (i + 1 < wc → fixedPayloadFits (BitVec.ofNat w i) (BitVec.ofNat w wc) (fixedExtra w n) =
      decide (i + 2 + n.toNat / 2 ≤ wc))

/-- R137's hazard: without that guarantee, at any IDX_W of at least 2 bits, a wrapped sum passes the payload test that
naturals fail, and the cursor it gives lies before the one it came from. -/
def Obligations.WrappedSumWouldPassTheTest : Prop :=
  ∀ w : Nat, 2 ≤ w → ∃ (i wc : Nat) (n : Nibble), wc < 2 ^ w ∧ i + 1 < wc ∧ wc < i + 2 + n.toNat / 2 ∧
    fixedPayloadFits (BitVec.ofNat w i) (BitVec.ofNat w wc) (fixedExtra w n) = true ∧
    (BitVec.ofNat w i + 2#w + fixedExtra w n).toNat < i

/-- R6, D4, D16: every fixed-width build whose parameters meet the constraints gives, at its ports' widths, the reference
function's outcome on every buffer up to MAX_BYTES, and none on a longer one. That the build stands beside the machine as a
function with the parameters as its argument is the model's choice (log 8). -/
def Obligations.FixedWidthBuildAgreesUpToMaxBytes : Prop :=
  ∀ (p : Build) (b : Buffer), p.Valid →
    (b.len ≤ p.maxBytes → (fixedDecode p b).map FixedOutcome.value = referenceDecode b) ∧
    (p.maxBytes < b.len → fixedDecode p b = none)

/-! ### Laws of whole streams -/

/-- R78: an empty buffer gives Ok(0, 0) on any instance that is not scanning, in the call entry and one step, reading
nothing; that the call entry counts as one step is the model's choice (log 2, log 13). -/
def Obligations.EmptyBufferGivesZeroCounts : Prop :=
  ∀ s : State, s.phase ≠ .scan →
    callOutcome 2 s (Buffer.ofBytes []) = some (.ok 0 0) ∧ runReads 2 (s.present (Buffer.ofBytes [])) = []

/-- R80: concatenating two streams that decode gives the element-wise sum. -/
def Obligations.DecodingIsAdditive : Prop :=
  ∀ (a b : List Byte) (s1 h1 s2 h2 : Nat),
    outcomeOf a = some (.ok s1 h1) → outcomeOf b = some (.ok s2 h2) →
    outcomeOf (a ++ b) = some (.ok (s1 + s2) (h1 + h2))

/-- R80's derived consequence: after a stream that decodes, a truncation is reported at its index moved by that stream's
word count. -/
def Obligations.TruncationIndexMovesWithAPrefix : Prop :=
  ∀ (a b : List Byte) (s1 h1 : Nat) (k : Kind) (j : Nat),
    outcomeOf a = some (.ok s1 h1) → outcomeOf b = some (.truncatedFrame k j) →
    outcomeOf (a ++ b) = some (.truncatedFrame k (a.length / 4 + j))

/-- R50, R60, R95, R85 (properties Q1, Q2): every concatenation of well-formed records decodes to its numbers of PPS_SECOND
and HIT records, whatever the ignored bits and the payload words hold. -/
def Obligations.WellFormedStreamsDecodeToTheirCounts : Prop :=
  ∀ rs : List Record, (∀ r ∈ rs, r.wellFormed = true) →
    outcomeOfWords (streamWords rs) = some (.ok (secondsIn rs) (hitsIn rs))

/-- The converse (R50, R59): a buffer decodes to Ok only if it is such a concatenation, with those counts. -/
def Obligations.OnlyWellFormedStreamsDecode : Prop :=
  ∀ (ws : List Word) (sec hit : Nat), outcomeOfWords ws = some (.ok sec hit) →
    ∃ rs : List Record, (∀ r ∈ rs, r.wellFormed = true) ∧ streamWords rs = ws ∧ secondsIn rs = sec ∧ hitsIn rs = hit

/-- R80's last consequence, on vectors S5 and S3: a truncated stream can be completed by what follows it. -/
def Obligations.TruncatedStreamCanBeCompleted : Prop :=
  outcomeOf [0x01, 0, 0, 0] = some (.truncatedFrame .hit 0) ∧
    outcomeOf ([0x01, 0, 0, 0] ++ [0, 0, 0, 0]) = some (.ok 0 1)

/-- R102 (a): 2k zero words are k HITs; one more is a truncated HIT at word 2k. -/
def Obligations.ZeroWordsAreHits : Prop :=
  ∀ k : Nat, outcomeOfWords (List.replicate (2 * k) 0) = some (.ok 0 k) ∧
    outcomeOfWords (List.replicate (2 * k + 1) 0) = some (.truncatedFrame .hit (2 * k))

/-- R60: words stepped over are never classified. Whatever the configuration word is, and whatever the payload words and the
low bits of the count word are, the record counts as one TRIG_CONFIG or one HIT; and in any stream, after any well-formed
records and before any words, replacing these words by any others changes no outcome. -/
def Obligations.SkippedWordsAreNeverClassified : Prop :=
  (∀ (lo24 : Lo24) (cfg : Word), outcomeOfWords [headerWord 0xE5 lo24, cfg] = some (.ok 0 0)) ∧
  (∀ (tag : Tag) (lo24 : Lo24) (n : Nibble) (lo28 : Lo28) (payload : List Word),
    isMarkerTag tag = false → payload.length = n.toNat / 2 →
    outcomeOfWords (headerWord tag lo24 :: countWord n lo28 :: payload) = some (.ok 0 1)) ∧
  (∀ (before : List Record) (rest : List Word) (lo24 : Lo24) (cfg cfg' : Word),
    (∀ r ∈ before, r.wellFormed = true) →
    outcomeOfWords (streamWords before ++ headerWord 0xE5 lo24 :: cfg :: rest) =
      outcomeOfWords (streamWords before ++ headerWord 0xE5 lo24 :: cfg' :: rest)) ∧
  (∀ (before : List Record) (rest : List Word) (tag : Tag) (lo24 : Lo24) (n : Nibble) (lo28 lo28' : Lo28)
    (payload payload' : List Word),
    (∀ r ∈ before, r.wellFormed = true) → isMarkerTag tag = false →
    payload.length = n.toNat / 2 → payload'.length = n.toNat / 2 →
    outcomeOfWords (streamWords before ++ headerWord tag lo24 :: countWord n lo28 :: (payload ++ rest)) =
      outcomeOfWords (streamWords before ++ headerWord tag lo24 :: countWord n lo28' :: (payload' ++ rest)))

/-! ### Several instances -/

/-- R121, R45, with instances as a list of states that a schedule steps, the model's reading (log 18, DEDUCED): under any
schedule each instance ends in the state its own steps give it alone; and where instances that are not scanning are all
lent one and the same buffer, each that the schedule gives at least as many steps as a call takes (log 2, log 13) shows the
reference function's outcome over that buffer and still holds it unchanged, whatever the others did between its steps. -/
def Obligations.InstancesAreIndependent : Prop :=
  (∀ (schedule : List Nat) (ss : List State) (k : Nat),
    (runSchedule schedule ss)[k]? = (ss[k]?).map (runAlone (schedule.count k))) ∧
  (∀ (schedule : List Nat) (ss : List State) (b : Buffer) (k : Nat) (s : State),
    ss[k]? = some s → s.phase ≠ .scan → callSteps b ≤ schedule.count k →
    ∃ t, (runSchedule schedule (ss.map fun u => u.present b))[k]? = some t ∧
      t.outcome = referenceDecode b ∧ t.buf = b)
end

