-- ==== Sys2Proof/Laws/Bits.lean ====
section
/-!
SUPPORT. Laws of the bit fields: a field put into a word is the field taken out of it, and a word is its fields put
together (spec/30_encoding.md R51, R52; spec/20_memory.md R32).
-/
namespace Sys2Proof

/-! ### Any widths -/

theorem extractLsb'_append_high {m n : Nat} (x : BitVec m) (y : BitVec n) : (x ++ y).extractLsb' n m = x := by
  ext i hi
  simp [BitVec.getLsbD_append, BitVec.getLsbD_eq_getElem hi]

theorem extractLsb'_append_low {m n : Nat} (x : BitVec m) (y : BitVec n) : (x ++ y).extractLsb' 0 n = y := by
  ext i hi
  simp [BitVec.getLsbD_append, hi]

theorem append_extractLsb' {m n : Nat} (w : BitVec (m + n)) : w.extractLsb' n m ++ w.extractLsb' 0 n = w := by
  ext i hi
  simp only [BitVec.getElem_append, BitVec.getElem_extractLsb']
  split
  · simp [BitVec.getLsbD_eq_getElem hi]
  · next h => simp [Nat.add_sub_cancel' (Nat.le_of_not_lt h), BitVec.getLsbD_eq_getElem hi]

/-! ### Headers -/

@[simp] theorem tagOf_headerWord (t : Tag) (l : Lo24) : tagOf (headerWord t l) = t :=
  extractLsb'_append_high t l

@[simp] theorem lo24Of_headerWord (t : Tag) (l : Lo24) : lo24Of (headerWord t l) = l :=
  extractLsb'_append_low t l

@[simp] theorem headerWord_fields (w : Word) : headerWord (tagOf w) (lo24Of w) = w :=
  append_extractLsb' (m := 8) (n := 24) w

/-! ### Count words -/

@[simp] theorem adcCountOf_countWord (n : Nibble) (l : Lo28) : Machine.adcCountOf (Machine.countWord n l) = n :=
  extractLsb'_append_high n l

@[simp] theorem lo28Of_countWord (n : Nibble) (l : Lo28) : Machine.lo28Of (Machine.countWord n l) = l :=
  extractLsb'_append_low n l

@[simp] theorem countWord_fields (w : Word) : Machine.countWord (Machine.adcCountOf w) (Machine.lo28Of w) = w :=
  append_extractLsb' (m := 4) (n := 28) w

/-! ### Bytes and words -/

/-- A word is its bytes put together: what the buffer stores is what `MemRead` assembles. -/
theorem wordOfBytes_bytes (w : Word) :
    wordOfBytes (w.extractLsb' 24 8) (w.extractLsb' 16 8) (w.extractLsb' 8 8) (w.extractLsb' 0 8) = w := by
  apply BitVec.eq_of_getLsbD_eq
  intro i hi
  simp only [wordOfBytes, BitVec.getLsbD_append, BitVec.getLsbD_extractLsb']
  split
  · simp [*]
  split
  · next h1 h2 => rw [show 8 + (i - 8) = i by omega]; simp [h2]
  split
  · next h1 h2 h3 => rw [show 16 + (i - 8 - 8) = i by omega]; simp [h3]
  · next h1 h2 h3 =>
    rw [show 24 + (i - 8 - 8 - 8) = i by omega]
    simp [show i - 8 - 8 - 8 < 8 by omega]

theorem append_toNat {m n : Nat} (x : BitVec m) (y : BitVec n) : (x ++ y).toNat = x.toNat * 2 ^ n + y.toNat := by
  rw [BitVec.toNat_append, ← Nat.shiftLeft_add_eq_or_of_lt y.isLt, Nat.shiftLeft_eq]

/-- The first byte of a word in the buffer is its tag. -/
theorem tagOf_wordOfBytes (b0 b1 b2 b3 : Byte) : tagOf (wordOfBytes b0 b1 b2 b3) = b0 := by
  apply BitVec.eq_of_toNat_eq
  simp only [tagOf, wordOfBytes, BitVec.extractLsb'_toNat, append_toNat, Nat.shiftRight_eq_div_pow]
  have := b0.isLt; have := b1.isLt; have := b2.isLt; have := b3.isLt
  omega

theorem tagOf_toNat (w : Word) : (tagOf w).toNat = w.toNat >>> 24 := by
  have := w.isLt
  simp only [tagOf, BitVec.extractLsb'_toNat, Nat.shiftRight_eq_div_pow]
  omega

theorem adcCountOf_toNat (w : Word) : (Machine.adcCountOf w).toNat = w.toNat >>> 28 := by
  have := w.isLt
  simp only [Machine.adcCountOf, BitVec.extractLsb'_toNat, Nat.shiftRight_eq_div_pow]
  omega

@[simp] theorem bytesOfWord_length (w : Word) : (bytesOfWord w).length = 4 := rfl

theorem bytesOfWords_length (ws : List Word) : (bytesOfWords ws).length = 4 * ws.length := by
  induction ws with
  | nil => rfl
  | cons w ws ih => simp [bytesOfWords, ih]; omega

theorem bytesOfWords_append (ws ws' : List Word) : bytesOfWords (ws ++ ws') = bytesOfWords ws ++ bytesOfWords ws' := by
  induction ws with
  | nil => rfl
  | cons w ws ih => simp [bytesOfWords, ih]

/-! ### The decoder -/

theorem decodeBytes_bytesOfWord (w : Word) (rest : List Byte) :
    decodeBytes (bytesOfWord w ++ rest) = .ok (decodeWord w, rest) := by
  simp [bytesOfWord, decodeBytes, wordOfBytes_bytes]

@[simp] theorem decodeWord_kind (w : Word) : (decodeWord w).kind = kindOfTag (tagOf w) := by
  unfold decodeWord
  cases h : kindOfTag (tagOf w) <;> rfl

theorem kindOfTag_hit_iff (t : Tag) : kindOfTag t = .hit ↔ isMarkerTag t = false := by
  unfold kindOfTag isMarkerTag
  split <;> [simp_all; skip]
  split <;> [simp_all; skip]
  split <;> [simp_all; skip]
  split <;> simp_all

end Sys2Proof
end

