-- ==== Sys2Proof/Laws/Memory.lean ====
section
/-!
SUPPORT. Laws of the buffer: every operation keeps the canonical form, a byte written is the byte read, other bytes stay,
and a word can be read exactly where the stream has one.
-/
namespace Sys2Proof.Machine

/-! ### The canonical form is kept -/

theorem cellsWf_mono {len lo lo' : Nat} {cells : List Host.Cell} (h : cellsWf len lo cells = true) (hlo : lo' ≤ lo) :
    cellsWf len lo' cells = true := by
  cases cells with
  | nil => rfl
  | cons c rest =>
    obtain ⟨a, v⟩ := c
    simp only [cellsWf, Bool.and_eq_true, decide_eq_true_eq] at h ⊢
    exact ⟨⟨⟨by omega, h.1.1.2⟩, h.1.2⟩, h.2⟩

theorem cellsWf_grow {len len' lo : Nat} {cells : List Host.Cell} (h : cellsWf len lo cells = true) (hlen : len ≤ len') :
    cellsWf len' lo cells = true := by
  induction cells generalizing lo with
  | nil => rfl
  | cons c rest ih =>
    obtain ⟨a, v⟩ := c
    simp only [cellsWf, Bool.and_eq_true, decide_eq_true_eq] at h ⊢
    exact ⟨⟨⟨h.1.1.1, by omega⟩, h.1.2⟩, ih h.2⟩

theorem cellsWf_consCell {len lo a : Nat} {v : Byte} {cells : List Host.Cell} (hlo : lo ≤ a) (ha : a < len)
    (h : cellsWf len (a + 1) cells = true) : cellsWf len lo (consCell a v cells) = true := by
  unfold consCell
  split
  · exact cellsWf_mono h (by omega)
  · next hv => simp [cellsWf, hlo, ha, h, hv]

theorem cellsWf_writeCell {len lo a : Nat} {v : Byte} {cells : List Host.Cell} (hlo : lo ≤ a) (ha : a < len)
    (h : cellsWf len lo cells = true) : cellsWf len lo (writeCell cells a v) = true := by
  induction cells generalizing lo with
  | nil => exact cellsWf_consCell hlo ha rfl
  | cons c rest ih =>
    obtain ⟨a', v'⟩ := c
    simp only [cellsWf, Bool.and_eq_true, decide_eq_true_eq] at h
    unfold writeCell
    split
    · next hlt => exact cellsWf_consCell hlo ha (by simp [cellsWf, h.1.1.2, h.1.2, h.2]; omega)
    split
    · next heq => subst heq; exact cellsWf_consCell hlo ha h.2
    · simp only [cellsWf, Bool.and_eq_true, decide_eq_true_eq]
      exact ⟨h.1, ih (by omega) h.2⟩

theorem cellsWf_writeCells {len a : Nat} {vs : List Byte} {cells : List Host.Cell} (ha : a + vs.length ≤ len)
    (h : cellsWf len 0 cells = true) : cellsWf len 0 (writeCells cells a vs) = true := by
  induction vs generalizing cells a with
  | nil => exact h
  | cons v vs ih =>
    rw [List.length_cons] at ha
    exact ih (by omega) (cellsWf_writeCell (Nat.zero_le _) (by omega) h)

/-- Placing bytes keeps the canonical form. -/
theorem Buffer.place_wf {b : Buffer} (a : Nat) (bytes : List Byte) (h : b.wf = true) : (b.place a bytes).wf = true := by
  have hlen : max b.len (a + bytes.length) ≤ Config.wordBytes * ((max b.len (a + bytes.length) + 3) / Config.wordBytes) := by
    simp only [Config.wordBytes]; omega
  exact cellsWf_writeCells (by simp only [Buffer.place]; omega) (cellsWf_grow h (by simp only [Buffer.place]; omega))

theorem cellsWf_cellsOfBytes {len a : Nat} (vs : List Byte) (ha : a + vs.length ≤ len) :
    cellsWf len a (cellsOfBytes a vs) = true := by
  induction vs generalizing a with
  | nil => rfl
  | cons v vs ih =>
    rw [List.length_cons] at ha
    exact cellsWf_consCell (Nat.le_refl a) (by omega) (ih (by omega))

/-- A buffer made of bytes is in canonical form. -/
theorem Buffer.ofBytes_wf (bytes : List Byte) : (Buffer.ofBytes bytes).wf = true :=
  cellsWf_cellsOfBytes bytes (by simp [Buffer.ofBytes])

/-! ### Read after write -/

theorem cellByte_below {len lo x : Nat} {cells : List Host.Cell} (h : cellsWf len lo cells = true) (hx : x < lo) :
    cellByte cells x = Config.unlistedByte := by
  induction cells generalizing lo with
  | nil => rfl
  | cons c rest ih =>
    obtain ⟨a, v⟩ := c
    simp only [cellsWf, Bool.and_eq_true, decide_eq_true_eq] at h
    simp only [cellByte, if_neg (show a ≠ x by omega)]
    exact ih h.2 (by omega)

theorem cellByte_consCell {len a x : Nat} {v : Byte} {cells : List Host.Cell} (h : cellsWf len (a + 1) cells = true) :
    cellByte (consCell a v cells) x = if x = a then v else cellByte cells x := by
  unfold consCell
  split
  · next hv =>
    split
    · next hx => rw [hv]; exact cellByte_below h (by omega)
    · rfl
  · simp only [cellByte, eq_comm]

/-- A byte written is the byte read; every other byte stays. -/
theorem cellByte_writeCell {len lo a x : Nat} {v : Byte} {cells : List Host.Cell} (h : cellsWf len lo cells = true) :
    cellByte (writeCell cells a v) x = if x = a then v else cellByte cells x := by
  induction cells generalizing lo with
  | nil => exact cellByte_consCell (len := len) rfl
  | cons c rest ih =>
    obtain ⟨a', v'⟩ := c
    simp only [cellsWf, Bool.and_eq_true, decide_eq_true_eq] at h
    unfold writeCell
    split
    · next hlt =>
      exact cellByte_consCell (len := len) (by simp [cellsWf, h.1.1.2, h.1.2, h.2]; omega)
    split
    · next heq =>
      subst heq
      rw [cellByte_consCell h.2]
      by_cases hx : x = a
      · simp [hx]
      · simp [cellByte, hx, Ne.symm hx]
    · next hne =>
      simp only [cellByte, ih h.2]
      by_cases hx : a' = x
      · subst hx; simp [Ne.symm hne]
      · simp [hx]

/-- Bytes written one after another are the bytes read; every other byte stays. -/
theorem cellByte_writeCells {len a x : Nat} {vs : List Byte} {cells : List Host.Cell} (ha : a + vs.length ≤ len)
    (h : cellsWf len 0 cells = true) :
    cellByte (writeCells cells a vs) x = if a ≤ x then vs.getD (x - a) (cellByte cells x) else cellByte cells x := by
  induction vs generalizing cells a with
  | nil => simp [writeCells]
  | cons v vs ih =>
    rw [List.length_cons] at ha
    rw [writeCells, ih (by omega) (cellsWf_writeCell (Nat.zero_le _) (by omega) h), cellByte_writeCell h]
    by_cases hx : x = a
    · simp [hx]
    · by_cases hlt : a + 1 ≤ x
      · rw [show x - a = (x - (a + 1)) + 1 by omega]
        simp [hx, hlt, show a ≤ x by omega]
      · simp [hx, hlt, show ¬ a ≤ x by omega]

/-- Placed bytes are read where they were placed. -/
theorem Buffer.byte_place {b : Buffer} {a j : Nat} {bytes : List Byte} (h : b.wf = true) (hj : j < bytes.length) :
    (b.place a bytes).byte (a + j) = some bytes[j] := by
  have hlen : max b.len (a + bytes.length) ≤ (b.place a bytes).len := by
    simp only [Buffer.place, Config.wordBytes]; omega
  rw [Buffer.byte, if_pos (by omega)]
  simp only [Buffer.place]
  rw [cellByte_writeCells (len := max b.len (a + bytes.length)) (by omega) (cellsWf_grow h (by omega))]
  simp [hj]

theorem cellByte_cellsOfBytes {a x : Nat} (vs : List Byte) :
    cellByte (cellsOfBytes a vs) x = if a ≤ x then vs.getD (x - a) Config.unlistedByte else Config.unlistedByte := by
  induction vs generalizing a with
  | nil => simp [cellsOfBytes, cellByte]
  | cons v vs ih =>
    rw [cellsOfBytes, cellByte_consCell (cellsWf_cellsOfBytes vs (Nat.le_refl _)), ih]
    by_cases hx : x = a
    · simp [hx]
    · by_cases hlt : a + 1 ≤ x
      · rw [show x - a = (x - (a + 1)) + 1 by omega]
        simp [hx, hlt, show a ≤ x by omega]
      · simp [hx, hlt, show ¬ a ≤ x by omega]

/-- The buffer made of bytes gives back each of them, and nothing past the last. -/
theorem Buffer.byte_ofBytes (bytes : List Byte) (a : Nat) : (Buffer.ofBytes bytes).byte a = bytes[a]? := by
  simp only [Buffer.byte, Buffer.ofBytes, cellByte_cellsOfBytes]
  split
  · next h => simp [h]
  · next h => simp [Nat.le_of_not_lt h]

/-! ### Words -/

/-- A byte exists exactly below the length (R39). -/
theorem Buffer.byte_eq_none {b : Buffer} {a : Nat} (h : b.len ≤ a) : b.byte a = none := by
  simp [Buffer.byte, Nat.not_lt.mpr h]

theorem Buffer.byte_eq_some {b : Buffer} {a : Nat} (h : a < b.len) : b.byte a = some (cellByte b.cells a) := by
  simp [Buffer.byte, h]

/-- A word of the stream exists: its four bytes are in the buffer (R31). -/
theorem Buffer.word_of_lt {b : Buffer} {k : Nat} (h : k < b.wordCount) :
    b.word k = some (wordOfBytes (cellByte b.cells (4 * k)) (cellByte b.cells (4 * k + 1))
      (cellByte b.cells (4 * k + 2)) (cellByte b.cells (4 * k + 3))) := by
  simp only [Buffer.wordCount, Config.wordBytes] at h
  simp only [Buffer.word, Buffer.memRead, wordOffset, Config.wordBytes]
  rw [Buffer.byte_eq_some (by omega), Buffer.byte_eq_some (by omega), Buffer.byte_eq_some (by omega),
    Buffer.byte_eq_some (by omega)]

/-- Past the last word there is none (R35). -/
theorem Buffer.word_of_le {b : Buffer} {k : Nat} (h : b.wordCount ≤ k) : b.word k = none := by
  simp only [Buffer.wordCount, Config.wordBytes] at h
  simp only [Buffer.word, Buffer.memRead, wordOffset, Config.wordBytes]
  rw [Buffer.byte_eq_none (a := 4 * k + 3) (by omega)]
  split <;> simp_all

end Sys2Proof.Machine
end

