-- ==== Sys2Proof/Laws/FixedWidth.lean ====
section
/-!
SUPPORT. Laws of the fixed-width builds: in a buffer that a build with valid parameters accepts, each port and register
operation has the value of its natural-number counterpart.
-/
namespace Sys2Proof.Machine

variable {p : Build} {b : Buffer}

/-- R137's guarantee, for every buffer a build accepts. -/
theorem Build.wordCount_lt (hp : p.Valid) (hb : b.len ≤ p.maxBytes) : b.wordCount + 7 < 2 ^ p.idxW := by
  have := Nat.div_le_div_right (c := Config.wordBytes) hb
  have := hp.1
  simp only [Buffer.wordCount]
  omega

theorem Build.len_lt (hp : p.Valid) (hb : b.len ≤ p.maxBytes) : b.len < 2 ^ p.lenW :=
  Nat.lt_of_le_of_lt hb hp.2.2

theorem Build.counter_lt (hp : p.Valid) {x : Nat} (hx : x < 2 ^ p.idxW) : x < 2 ^ p.cntW :=
  Nat.lt_of_lt_of_le hx (Nat.pow_le_pow_right (by decide) hp.2.1)

@[simp] theorem fixedInput_buf : (fixedInput p b).buf = b := rfl

/-- The length port holds the length. -/
theorem fixedInput_len (hb : b.len < 2 ^ p.lenW) : (fixedInput p b).len.toNat = b.len := by
  simp only [fixedInput, BitVec.toNat_ofNat, Nat.mod_eq_of_lt hb]

theorem fixedAligned_input (hb : b.len < 2 ^ p.lenW) : fixedAligned (fixedInput p b) = b.aligned := by
  simp only [fixedAligned, fixedInput_len hb, Buffer.aligned]

theorem fixedWordCount_input (hb : b.len < 2 ^ p.lenW) (hw : b.wordCount < 2 ^ p.idxW) :
    (fixedWordCount (fixedInput p b)).toNat = b.wordCount := by
  simp only [fixedWordCount, fixedInput_len hb, BitVec.toNat_ofNat]
  exact Nat.mod_eq_of_lt hw

/-- The read port gives the word, where the stream has one. -/
theorem fixedRdData_input (hb : b.len < 2 ^ p.lenW) {k : BitVec p.idxW} (hk : k.toNat < b.wordCount) :
    fixedRdData (fixedInput p b) k = b.word k.toNat := by
  have : wordOffset k.toNat < 2 ^ p.lenW := by
    simp only [wordOffset, Buffer.wordCount, Config.wordBytes] at hk ⊢
    omega
  simp only [fixedRdData, fixedInput_buf, fixedRdAddr, BitVec.toNat_ofNat, Nat.mod_eq_of_lt this, Buffer.word]

@[simp] theorem FixedRegs.advance_i (k : BitVec p.idxW) (r : FixedRegs p) : (r.advance k).i = r.i + k := rfl
@[simp] theorem FixedRegs.advance_seconds (k : BitVec p.idxW) (r : FixedRegs p) : (r.advance k).seconds = r.seconds := rfl
@[simp] theorem FixedRegs.advance_hits (k : BitVec p.idxW) (r : FixedRegs p) : (r.advance k).hits = r.hits := rfl
@[simp] theorem FixedRegs.countSecond_i (r : FixedRegs p) : r.countSecond.i = r.i := rfl
@[simp] theorem FixedRegs.countSecond_seconds (r : FixedRegs p) : r.countSecond.seconds = r.seconds + 1#p.cntW := rfl
@[simp] theorem FixedRegs.countSecond_hits (r : FixedRegs p) : r.countSecond.hits = r.hits := rfl
@[simp] theorem FixedRegs.countHit_i (r : FixedRegs p) : r.countHit.i = r.i := rfl
@[simp] theorem FixedRegs.countHit_seconds (r : FixedRegs p) : r.countHit.seconds = r.seconds := rfl
@[simp] theorem FixedRegs.countHit_hits (r : FixedRegs p) : r.countHit.hits = r.hits + 1#p.cntW := rfl

end Sys2Proof.Machine
end

