-- ==== Sys2Proof/Laws/PerInstr.lean ====
section
/-!
SUPPORT. Laws per instruction. Family HeaderFields: the header word of a well-formed instruction carries the tag of its
kind and its ignored field (spec/30_encoding.md R51, R53).
-/
namespace Sys2Proof.Laws

/-- The ignored field of an instruction. -/
def ignoredField : Instr → Lo24
  | .ppsSecond lo24 => lo24
  | .ppsYear lo24 => lo24
  | .trigConfig lo24 => lo24
  | .dataFormat lo24 => lo24
  | .hit _ lo24 => lo24

/-- The header word's tag selects the instruction's kind, and its low bits are the instruction's ignored field. -/
def HeaderFields.Statement (i : Instr) : Prop :=
  i.wellFormed = true → kindOfTag (tagOf (encodeWord i)) = i.kind ∧ lo24Of (encodeWord i) = ignoredField i

theorem HeaderFields.ppsSecond (lo24 : Lo24) : HeaderFields.Statement (.ppsSecond lo24) :=
  fun _ => ⟨by rw [encodeWord, tagOf_headerWord]; rfl, lo24Of_headerWord _ _⟩

theorem HeaderFields.ppsYear (lo24 : Lo24) : HeaderFields.Statement (.ppsYear lo24) :=
  fun _ => ⟨by rw [encodeWord, tagOf_headerWord]; rfl, lo24Of_headerWord _ _⟩

theorem HeaderFields.trigConfig (lo24 : Lo24) : HeaderFields.Statement (.trigConfig lo24) :=
  fun _ => ⟨by rw [encodeWord, tagOf_headerWord]; rfl, lo24Of_headerWord _ _⟩

theorem HeaderFields.dataFormat (lo24 : Lo24) : HeaderFields.Statement (.dataFormat lo24) :=
  fun _ => ⟨by rw [encodeWord, tagOf_headerWord]; rfl, lo24Of_headerWord _ _⟩

theorem HeaderFields.hit (tag : Tag) (lo24 : Lo24) : HeaderFields.Statement (.hit tag lo24) :=
  fun h => ⟨by rw [encodeWord, tagOf_headerWord]; exact (kindOfTag_hit_iff tag).mpr (by simpa [Instr.wellFormed] using h),
    lo24Of_headerWord _ _⟩

end Sys2Proof.Laws
end

