-- ==== Sys2Proof/Laws/State.lean ====
section
/-!
SUPPORT. One lemma per field per update of State, each true by rfl, so that no proof unfolds a record update.
-/
namespace Sys2Proof.Machine

@[simp] theorem advance_phase (k : Nat) (s : State) : (advance k s).phase = s.phase := rfl
@[simp] theorem advance_i (k : Nat) (s : State) : (advance k s).i = s.i + k := rfl
@[simp] theorem advance_seconds (k : Nat) (s : State) : (advance k s).seconds = s.seconds := rfl
@[simp] theorem advance_hits (k : Nat) (s : State) : (advance k s).hits = s.hits := rfl
@[simp] theorem advance_err (k : Nat) (s : State) : (advance k s).err = s.err := rfl
@[simp] theorem advance_buf (k : Nat) (s : State) : (advance k s).buf = s.buf := rfl
@[simp] theorem advance_start (k : Nat) (s : State) : (advance k s).start = s.start := rfl
@[simp] theorem advance_draws (k : Nat) (s : State) : (advance k s).draws = s.draws := rfl

@[simp] theorem countSecond_phase (s : State) : (countSecond s).phase = s.phase := rfl
@[simp] theorem countSecond_i (s : State) : (countSecond s).i = s.i := rfl
@[simp] theorem countSecond_seconds (s : State) : (countSecond s).seconds = s.seconds + 1 := rfl
@[simp] theorem countSecond_hits (s : State) : (countSecond s).hits = s.hits := rfl
@[simp] theorem countSecond_err (s : State) : (countSecond s).err = s.err := rfl
@[simp] theorem countSecond_buf (s : State) : (countSecond s).buf = s.buf := rfl
@[simp] theorem countSecond_start (s : State) : (countSecond s).start = s.start := rfl
@[simp] theorem countSecond_draws (s : State) : (countSecond s).draws = s.draws := rfl

@[simp] theorem countHit_phase (s : State) : (countHit s).phase = s.phase := rfl
@[simp] theorem countHit_i (s : State) : (countHit s).i = s.i := rfl
@[simp] theorem countHit_seconds (s : State) : (countHit s).seconds = s.seconds := rfl
@[simp] theorem countHit_hits (s : State) : (countHit s).hits = s.hits + 1 := rfl
@[simp] theorem countHit_err (s : State) : (countHit s).err = s.err := rfl
@[simp] theorem countHit_buf (s : State) : (countHit s).buf = s.buf := rfl
@[simp] theorem countHit_start (s : State) : (countHit s).start = s.start := rfl
@[simp] theorem countHit_draws (s : State) : (countHit s).draws = s.draws := rfl

@[simp] theorem raise_phase (e : Err) (s : State) : (raise e s).phase = .fault := rfl
@[simp] theorem raise_i (e : Err) (s : State) : (raise e s).i = s.i := rfl
@[simp] theorem raise_seconds (e : Err) (s : State) : (raise e s).seconds = s.seconds := rfl
@[simp] theorem raise_hits (e : Err) (s : State) : (raise e s).hits = s.hits := rfl
@[simp] theorem raise_err (e : Err) (s : State) : (raise e s).err = some e := rfl
@[simp] theorem raise_buf (e : Err) (s : State) : (raise e s).buf = s.buf := rfl
@[simp] theorem raise_start (e : Err) (s : State) : (raise e s).start = s.start := rfl
@[simp] theorem raise_draws (e : Err) (s : State) : (raise e s).draws = s.draws := rfl

@[simp] theorem raiseTruncated_phase (k : Kind) (s : State) : (raiseTruncated k s).phase = .fault := rfl
@[simp] theorem raiseTruncated_i (k : Kind) (s : State) : (raiseTruncated k s).i = s.i := rfl
@[simp] theorem raiseTruncated_seconds (k : Kind) (s : State) : (raiseTruncated k s).seconds = s.seconds := rfl
@[simp] theorem raiseTruncated_hits (k : Kind) (s : State) : (raiseTruncated k s).hits = s.hits := rfl
@[simp] theorem raiseTruncated_err (k : Kind) (s : State) : (raiseTruncated k s).err = some (.truncatedFrame k s.i) := rfl
@[simp] theorem raiseTruncated_buf (k : Kind) (s : State) : (raiseTruncated k s).buf = s.buf := rfl
@[simp] theorem raiseTruncated_start (k : Kind) (s : State) : (raiseTruncated k s).start = s.start := rfl
@[simp] theorem raiseTruncated_draws (k : Kind) (s : State) : (raiseTruncated k s).draws = s.draws := rfl

@[simp] theorem returnOk_phase (s : State) : (returnOk s).phase = .done := rfl
@[simp] theorem returnOk_i (s : State) : (returnOk s).i = s.i := rfl
@[simp] theorem returnOk_seconds (s : State) : (returnOk s).seconds = s.seconds := rfl
@[simp] theorem returnOk_hits (s : State) : (returnOk s).hits = s.hits := rfl
@[simp] theorem returnOk_err (s : State) : (returnOk s).err = s.err := rfl
@[simp] theorem returnOk_buf (s : State) : (returnOk s).buf = s.buf := rfl
@[simp] theorem returnOk_start (s : State) : (returnOk s).start = s.start := rfl
@[simp] theorem returnOk_draws (s : State) : (returnOk s).draws = s.draws := rfl

@[simp] theorem loseCursor_phase (s : State) : (loseCursor s).phase = s.phase := rfl
@[simp] theorem loseCursor_i (s : State) : (loseCursor s).i = Config.unspecifiedCursor s.draws := rfl
@[simp] theorem loseCursor_seconds (s : State) : (loseCursor s).seconds = s.seconds := rfl
@[simp] theorem loseCursor_hits (s : State) : (loseCursor s).hits = s.hits := rfl
@[simp] theorem loseCursor_err (s : State) : (loseCursor s).err = s.err := rfl
@[simp] theorem loseCursor_buf (s : State) : (loseCursor s).buf = s.buf := rfl
@[simp] theorem loseCursor_start (s : State) : (loseCursor s).start = s.start := rfl
@[simp] theorem loseCursor_draws (s : State) : (loseCursor s).draws = s.draws + 1 := rfl

@[simp] theorem startValues_phase (b : Buffer) (s : State) : (startValues b s).phase = .scan := rfl
@[simp] theorem startValues_i (b : Buffer) (s : State) : (startValues b s).i = 0 := rfl
@[simp] theorem startValues_seconds (b : Buffer) (s : State) : (startValues b s).seconds = 0 := rfl
@[simp] theorem startValues_hits (b : Buffer) (s : State) : (startValues b s).hits = 0 := rfl
@[simp] theorem startValues_err (b : Buffer) (s : State) : (startValues b s).err = none := rfl
@[simp] theorem startValues_buf (b : Buffer) (s : State) : (startValues b s).buf = b := rfl
@[simp] theorem startValues_start (b : Buffer) (s : State) : (startValues b s).start = none := rfl
@[simp] theorem startValues_draws (b : Buffer) (s : State) : (startValues b s).draws = s.draws := rfl

@[simp] theorem State.present_phase (s : State) (b : Buffer) : (s.present b).phase = s.phase := rfl
@[simp] theorem State.present_i (s : State) (b : Buffer) : (s.present b).i = s.i := rfl
@[simp] theorem State.present_seconds (s : State) (b : Buffer) : (s.present b).seconds = s.seconds := rfl
@[simp] theorem State.present_hits (s : State) (b : Buffer) : (s.present b).hits = s.hits := rfl
@[simp] theorem State.present_err (s : State) (b : Buffer) : (s.present b).err = s.err := rfl
@[simp] theorem State.present_buf (s : State) (b : Buffer) : (s.present b).buf = s.buf := rfl
@[simp] theorem State.present_start (s : State) (b : Buffer) : (s.present b).start = some b := rfl
@[simp] theorem State.present_draws (s : State) (b : Buffer) : (s.present b).draws = s.draws := rfl

end Sys2Proof.Machine
end

