-- ==== Sys2Proof/Laws/Step.lean ====
section
/-!
SUPPORT. What a step can do, said once: the call entry, the meaning of each record, the scan's body, the step and
what it reads. Proofs
cite these and unfold nothing.
-/
namespace Sys2Proof.Machine

/-! ### Tests -/

@[simp] theorem endOfScan_iff (s : State) : endOfScan s = true ↔ s.buf.wordCount ≤ s.i := by simp [endOfScan]

@[simp] theorem hasSecondWord_iff (s : State) : hasSecondWord s = true ↔ s.i + 1 < s.buf.wordCount := by
  simp [hasSecondWord]

@[simp] theorem payloadFits_iff (s : State) (extra : Nat) :
    payloadFits s extra = true ↔ s.i + 2 + extra ≤ s.buf.wordCount := by simp [payloadFits]

/-! ### Widths (R57) -/

@[simp] theorem markerWidth_ppsSecond : markerWidth .ppsSecond = 1 := rfl
@[simp] theorem markerWidth_ppsYear : markerWidth .ppsYear = 1 := rfl
@[simp] theorem markerWidth_trigConfig : markerWidth .trigConfig = 2 := rfl
@[simp] theorem markerWidth_dataFormat : markerWidth .dataFormat = 1 := rfl
@[simp] theorem width_hit (n : Nibble) : width .hit n = 2 + extraWords n := rfl

/-! ### Call entry (R71) -/

theorem beginCall_aligned {b : Buffer} {s : State} (h : b.aligned = true) : beginCall b s = startValues b s := by
  simp [beginCall, h]

theorem beginCall_malformed {b : Buffer} {s : State} (h : b.aligned = false) :
    beginCall b s = raise (.malformedLength b.len) (loseCursor (startValues b s)) := by
  simp [beginCall, h]

theorem awaitStart_none {s : State} (h : s.start = none) : awaitStart s = s := by simp [awaitStart, h]

theorem awaitStart_some {s : State} {b : Buffer} (h : s.start = some b) : awaitStart s = beginCall b s := by
  simp [awaitStart, h]

/-! ### The meanings: everything each can do -/

/-- TRIG_CONFIG has a second word and steps over it, or is truncated. -/
theorem execTrigConfig_cases (lo24 : Lo24) (s : State) :
    (s.i + 1 < s.buf.wordCount ∧ execTrigConfig lo24 s = .next (advance 2 s)) ∨
    (s.buf.wordCount ≤ s.i + 1 ∧ execTrigConfig lo24 s = .next (raiseTruncated .trigConfig s)) := by
  unfold execTrigConfig
  split
  · next h => exact .inl ⟨(hasSecondWord_iff s).mp h, rfl⟩
  · next h => exact .inr ⟨by simpa using h, rfl⟩

/-- The end of HIT: it fits and is counted, or is truncated. -/
theorem finishHit_cases (n : Nibble) (s : State) :
    (s.i + 2 + extraWords n ≤ s.buf.wordCount ∧ finishHit n s = advance (2 + extraWords n) (countHit s)) ∨
    (s.buf.wordCount < s.i + 2 + extraWords n ∧ finishHit n s = raiseTruncated .hit s) := by
  unfold finishHit
  split
  · next h => exact .inl ⟨(payloadFits_iff s _).mp h, rfl⟩
  · next h => exact .inr ⟨by simpa using h, rfl⟩

/-- HIT has a count word and ends by it, or is truncated: the read after the check never fails. -/
theorem execHit_cases (tag : Tag) (lo24 : Lo24) (s : State) :
    (∃ c, s.i + 1 < s.buf.wordCount ∧ s.buf.word (s.i + 1) = some c ∧
      execHit tag lo24 s = .next (finishHit (adcCountOf c) s)) ∨
    (s.buf.wordCount ≤ s.i + 1 ∧ execHit tag lo24 s = .next (raiseTruncated .hit s)) := by
  by_cases h : s.i + 1 < s.buf.wordCount
  · refine .inl ⟨_, h, Buffer.word_of_lt h, ?_⟩
    simp [execHit, secondWord, h, Buffer.word_of_lt h]
  · exact .inr ⟨Nat.le_of_not_lt h, by simp [execHit, h]⟩

/-! ### The scan and the step -/

theorem scanStep_end {s : State} (h : s.buf.wordCount ≤ s.i) : scanStep s = .next (returnOk s) := by
  simp [scanStep, h]

theorem scanStep_record {s : State} {w : Word} (h : s.i < s.buf.wordCount) (hw : s.buf.word s.i = some w) :
    scanStep s = exec (decodeWord w) s := by
  simp [scanStep, Nat.not_le.mpr h, fetchInstr, hw]

/-- A step in SCAN returns, or runs the instruction under the cursor. -/
theorem scanStep_cases (s : State) :
    (s.buf.wordCount ≤ s.i ∧ scanStep s = .next (returnOk s)) ∨
    (∃ w, s.i < s.buf.wordCount ∧ s.buf.word s.i = some w ∧ scanStep s = exec (decodeWord w) s) := by
  by_cases h : s.i < s.buf.wordCount
  · exact .inr ⟨_, h, Buffer.word_of_lt h, scanStep_record h (Buffer.word_of_lt h)⟩
  · exact .inl ⟨Nat.le_of_not_lt h, scanStep_end (Nat.le_of_not_lt h)⟩

theorem step_scan {s : State} (hp : s.phase = .scan) (hs : s.start = none) : step s = scanStep s := by
  simp [step, hp, hs]

theorem step_not_scan {s : State} (hp : s.phase ≠ .scan) : step s = .next (awaitStart s) := by
  cases h : s.phase <;> simp_all [step]

/-- Everything a step that answers a next state can have done. -/
theorem step_cases {s t : State} (h : step s = .next t) :
    (s.phase ≠ .scan ∧ s.start = none ∧ t = s) ∨
    (∃ b, s.phase ≠ .scan ∧ s.start = some b ∧ t = beginCall b s) ∨
    (s.phase = .scan ∧ s.start = none ∧ s.buf.wordCount ≤ s.i ∧ t = returnOk s) ∨
    (∃ w, s.phase = .scan ∧ s.start = none ∧ s.i < s.buf.wordCount ∧ s.buf.word s.i = some w ∧
      exec (decodeWord w) s = .next t) := by
  by_cases hp : s.phase = .scan
  · cases hs : s.start with
    | some b => simp [step, hp, hs] at h
    | none =>
      rw [step_scan hp hs] at h
      obtain ⟨hi, he⟩ | ⟨w, hi, hw, he⟩ := scanStep_cases s
      · rw [he] at h; cases h; exact .inr (.inr (.inl ⟨hp, rfl, hi, rfl⟩))
      · rw [he] at h; exact .inr (.inr (.inr ⟨w, hp, rfl, hi, hw, h⟩))
  · rw [step_not_scan hp] at h
    cases h
    cases hs : s.start with
    | none => exact .inl ⟨hp, rfl, awaitStart_none hs⟩
    | some b => exact .inr (.inl ⟨b, hp, rfl, awaitStart_some hs⟩)

/-- Everything an instruction can do: consume its record or be truncated, in each kind's own way. -/
theorem exec_cases {i : Instr} {s t : State} (h : exec i s = .next t) :
    (i.kind = .ppsSecond ∧ t = advance 1 (countSecond s)) ∨
    ((i.kind = .ppsYear ∨ i.kind = .dataFormat) ∧ t = advance 1 s) ∨
    (i.kind = .trigConfig ∧ s.i + 1 < s.buf.wordCount ∧ t = advance 2 s) ∨
    (∃ c, i.kind = .hit ∧ s.buf.word (s.i + 1) = some c ∧ s.i + 2 + extraWords (adcCountOf c) ≤ s.buf.wordCount ∧
      t = advance (2 + extraWords (adcCountOf c)) (countHit s)) ∨
    ((i.kind = .trigConfig ∨ i.kind = .hit) ∧ t = raiseTruncated i.kind s) := by
  cases i with
  | ppsSecond lo => cases h; exact .inl ⟨rfl, rfl⟩
  | ppsYear lo => cases h; exact .inr (.inl ⟨.inl rfl, rfl⟩)
  | dataFormat lo => cases h; exact .inr (.inl ⟨.inr rfl, rfl⟩)
  | trigConfig lo =>
    obtain ⟨hi, he⟩ | ⟨-, he⟩ := execTrigConfig_cases lo s
    · rw [exec, he] at h; cases h; exact .inr (.inr (.inl ⟨rfl, hi, rfl⟩))
    · rw [exec, he] at h; cases h; exact .inr (.inr (.inr (.inr ⟨.inl rfl, rfl⟩)))
  | hit tag lo =>
    obtain ⟨c, hi, hc, he⟩ | ⟨-, he⟩ := execHit_cases tag lo s
    · rw [exec, he] at h; cases h
      obtain ⟨hf, ht⟩ | ⟨-, ht⟩ := finishHit_cases (adcCountOf c) s
      · exact .inr (.inr (.inr (.inl ⟨c, rfl, hc, hf, ht⟩)))
      · exact .inr (.inr (.inr (.inr ⟨.inr rfl, ht⟩)))
    · rw [exec, he] at h; cases h; exact .inr (.inr (.inr (.inr ⟨.inr rfl, rfl⟩)))

/-- An instruction always answers a next state. -/
theorem exec_answers (i : Instr) (s : State) : ∃ t, exec i s = .next t := by
  cases i with
  | ppsSecond lo => exact ⟨_, rfl⟩
  | ppsYear lo => exact ⟨_, rfl⟩
  | dataFormat lo => exact ⟨_, rfl⟩
  | trigConfig lo => obtain ⟨-, h⟩ | ⟨-, h⟩ := execTrigConfig_cases lo s <;> exact ⟨_, h⟩
  | hit tag lo => obtain ⟨_, -, -, h⟩ | ⟨-, h⟩ := execHit_cases tag lo s <;> exact ⟨_, h⟩

/-! ### What a step reads -/

theorem scanReads_record {s : State} {w : Word} (h : s.i < s.buf.wordCount) (hw : s.buf.word s.i = some w) :
    scanReads s = instrReads (decodeWord w) s := by
  simp [scanReads, fetchInstr, hw, Nat.not_le.mpr h]

/-- A record reads its header, and a HIT its count word where there is one. -/
theorem mem_instrReads {i : Instr} {s : State} {k : Nat} (h : k ∈ instrReads i s) :
    k = s.i ∨ (i.kind = .hit ∧ s.i + 1 < s.buf.wordCount ∧ k = s.i + 1) := by
  cases i with
  | hit tag lo =>
    simp only [instrReads, hasSecondWord_iff] at h
    split at h <;> simp_all [Instr.kind]
  | ppsSecond lo => exact .inl (by simpa [instrReads] using h)
  | ppsYear lo => exact .inl (by simpa [instrReads] using h)
  | trigConfig lo => exact .inl (by simpa [instrReads] using h)
  | dataFormat lo => exact .inl (by simpa [instrReads] using h)

/-- Only a scan with a record under the cursor reads, and it reads for that record. -/
theorem mem_stepReads {s : State} {k : Nat} (h : k ∈ stepReads s) :
    s.Scanning ∧ ∃ w, s.buf.word s.i = some w ∧ k ∈ instrReads (decodeWord w) s := by
  unfold stepReads at h
  split at h
  · next hp hs =>
    by_cases hi : s.i < s.buf.wordCount
    · rw [scanReads_record hi (Buffer.word_of_lt hi)] at h
      exact ⟨⟨hp, hs, hi⟩, _, Buffer.word_of_lt hi, h⟩
    · simp [scanReads, Nat.le_of_not_lt hi] at h
  all_goals simp at h

/-! ### The host's reading of the decoder -/

theorem tableBytes_cons (nbits w : Nat) : ∃ b0 b1 b2 b3 rest, tableBytes nbits w = b0 :: b1 :: b2 :: b3 :: rest :=
  ⟨_, _, _, _, _, rfl⟩

end Sys2Proof.Machine
end

