-- ==== Sys2Proof/Tests/Slice0.lean ====
section
/-!
SUPPORT. Tests: the well-formedness smoke test, header words written out from the encoding tables, single steps with results
from 95_test_vectors.md, and a witness for the hypotheses of each statement that has some.
-/
namespace Sys2Proof.Tests

open Sys2Proof.Machine

/-! ### Helpers -/

/-- A call in SCAN over these words, with these registers. -/
def scanAt (words : List Word) (i seconds hits : Nat) : State :=
  { State.reset with phase := .scan, i := i, seconds := seconds, hits := hits, buf := Buffer.ofWords words }

/-- A state in DONE with these counts. -/
def doneWith (seconds hits : Nat) : State :=
  { State.reset with phase := .done, seconds := seconds, hits := hits }

/-- The next state of an outcome. -/
def nextOf (o : Host.Outcome State Fault Refusal) : Option State :=
  match o with
  | .next t => some t
  | .fault _ => none
  | .refused _ => none

/-- What a step answers: phase, cursor, counters, error. -/
def trace (o : Host.Outcome State Fault Refusal) : Option (Phase × Nat × Nat × Nat × Option Err) :=
  (nextOf o).map fun t => (t.phase, t.i, t.seconds, t.hits, t.err)

/-! ### Well-formedness: each ill-formed term is refused (R53, R63) -/

theorem test_wf_hit_e0 : Instr.wellFormed (.hit 0xE0 0) = false := by decide
theorem test_wf_hit_e4 : Instr.wellFormed (.hit 0xE4 0) = false := by decide
theorem test_wf_hit_e5 : Instr.wellFormed (.hit 0xE5 0) = false := by decide
theorem test_wf_hit_e6 : Instr.wellFormed (.hit 0xE6 0) = false := by decide
theorem test_wf_hit_e1 : Instr.wellFormed (.hit 0xE1 0) = true := by decide

/-- A HIT record with n = 3 has one payload word, not two (R97). -/
theorem test_wf_record_payload : Record.wellFormed (.hit 0x01 0 3 0 [0, 0]) = false := by decide

/-- The tag constants are pairwise distinct (R66). -/
theorem test_tags_distinct :
    [Config.tagPpsSecond, Config.tagPpsYear, Config.tagTrigConfig, Config.tagDataFormat].Nodup := by decide

/-! ### Decoding: words written out bit by bit from R51 and R53 -/

theorem test_decode_pps_second :
    decodeWord 0b11100000_000100100011010001010110 = .ppsSecond 0x123456 := by decide
theorem test_decode_pps_year :
    decodeWord 0b11100100_000000000000000000000111 = .ppsYear 0x000007 := by decide
theorem test_decode_trig_config :
    decodeWord 0b11100101_000000000000000000000001 = .trigConfig 0x000001 := by decide
theorem test_decode_data_format :
    decodeWord 0b11100110_000000000000000000000010 = .dataFormat 0x000002 := by decide
theorem test_decode_hit :
    decodeWord 0b01111111_000000000000000000000000 = .hit 0x7F 0 := by decide

/-- The count word of P1's first HIT: n = 3 (R52). -/
theorem test_adc_count : adcCountOf 0b0011_0000000000000000000000000000 = 3 := by decide

/-- A row's table word reaches the decoder as the buffer stores it (B5: byte order). -/
theorem test_table_word : decodeTableWord 32 0xE5000000 = some (.trigConfig 0) := by decide
theorem test_table_word_little : decodeTableWord 32 0x000000E0 = some (.hit 0x00 0xE0) := by decide

/-! ### Single steps (95_test_vectors.md) -/

/-- P1 step 1. -/
theorem test_pps_second : trace (step (scanAt [0xE0123456] 0 0 0)) = some (.scan, 1, 1, 0, none) := by decide
/-- P1 step 4: PPS_YEAR counts nothing. -/
theorem test_pps_year : trace (step (scanAt [0xE4000007] 0 1 1)) = some (.scan, 1, 1, 1, none) := by decide
/-- V5: DATA_FORMAT is one word and not a HIT. -/
theorem test_data_format : trace (step (scanAt [0xE6000002] 0 0 0)) = some (.scan, 1, 0, 0, none) := by decide
/-- S2. -/
theorem test_trig_config : trace (step (scanAt [0xE5000000, 0] 0 0 0)) = some (.scan, 2, 0, 0, none) := by decide
/-- P4 step 3: as the last word. -/
theorem test_trig_config_last : trace (step (scanAt [0xE0000000, 0x10000000, 0, 0xE5000000] 3 1 1)) =
    some (.fault, 3, 1, 1, some (.truncatedFrame .trigConfig 3)) := by decide
/-- S4: the payload ends exactly at the end. -/
theorem test_hit : trace (step (scanAt [0x01000000, 0x30000000, 0] 0 0 0)) = some (.scan, 3, 0, 1, none) := by decide
/-- P3 step 2: one payload word short. -/
theorem test_hit_short : trace (step (scanAt [0xE0000000, 0x99000000, 0x50000000, 0] 1 1 0)) =
    some (.fault, 1, 1, 0, some (.truncatedFrame .hit 1)) := by decide
/-- P1 step 8: the end of the scan. -/
theorem test_end : trace (step (scanAt [0xE0FFFFFF] 1 2 2)) = some (.done, 1, 2, 2, none) := by decide

/-- The first instruction after reset, placed as the host places it (log 12). -/
theorem test_first_pps_second :
    trace (step (State.reset.withFetchWord 32 0xE0000000)) = some (.scan, 1, 1, 0, none) := by decide
theorem test_first_hit :
    trace (step (State.reset.withFetchWord 32 0xF0000000)) = some (.scan, 2, 0, 1, none) := by decide

/-- P2 step 1: the two words a HIT reads, on the read port. -/
theorem test_read_port :
    (scanAt [0x42000000, 0x40000000, 0xE0000000, 0xE0000000] 0 0 0).rdAddr = [0, 4] ∧
    (scanAt [0x42000000, 0x40000000, 0xE0000000, 0xE0000000] 0 0 0).rdData = [some 0x42000000, some 0x40000000] := by decide

/-- V10 on the default build and on one with a 4-bit cursor: the index is at the port's width (R6, R23). -/
theorem test_fixed_v10 :
    fixedDecode Build.default (Buffer.ofWords [0xE0000000, 0xE5FFFFFF]) = some (.truncatedFrame .trigConfig 1#32) ∧
    fixedDecode { idxW := 4, cntW := 5 } (Buffer.ofWords [0xE0000000, 0xE5FFFFFF]) =
      some (.truncatedFrame .trigConfig 1#4) := by decide
/-- U7: a 4-bit cursor gives MAX_BYTES = 32; nine words are refused, eight are not. -/
theorem test_fixed_refuses :
    fixedDecode { idxW := 4, cntW := 4 } (Buffer.ofWords (List.replicate 9 0xE0000000)) = none ∧
    fixedDecode { idxW := 4, cntW := 4 } (Buffer.ofWords (List.replicate 8 0xE0000000)) = some (.ok 8#4 0#4) := by decide

/-! ### Outcomes of small calls (95_test_vectors.md) -/

/-- V7: a configuration word that looks like a PPS_SECOND is not counted; its false variant Ok(1, 0) is refuted. -/
theorem test_v7 : outcomeOfWords [0xE5000000, 0xE0000000] = some (.ok 0 0) := by decide
/-- B5: big-endian; the little-endian reading Ok(1, 0) is refuted. -/
theorem test_b5 : outcomeOf [0x00, 0x00, 0x00, 0xE0] = some (.truncatedFrame .hit 0) := by decide
/-- B3: the length check comes first. -/
theorem test_b3 : outcomeOf [0xE5, 0, 0, 0, 0] = some (.malformedLength 5) := by decide
/-- V10: the counted second is discarded with the error. -/
theorem test_v10 : outcomeOfWords [0xE0000000, 0xE5FFFFFF] = some (.truncatedFrame .trigConfig 1) := by decide
/-- V19: after a 3-word HIT the cursor rests on a real PPS_SECOND. -/
theorem test_v19 : outcomeOfWords [0xDF000000, 0x2FFFFFFF, 0x12345678, 0xE0000000] = some (.ok 1 1) := by decide
/-- The reference function on B6. -/
theorem test_b6_reference : referenceDecode (Buffer.ofBytes
    [0xE0, 0, 0, 0, 0x01, 0, 0, 0, 0x2F, 0xFF, 0xFF, 0xFF, 0xAA, 0xBB, 0xCC, 0xDD]) = some (.ok 1 1) := by decide
/-- A later call over the same instance keeps nothing of the first (R20). -/
theorem test_second_call : callOutcome 3 (doneWith 7 9) (Buffer.ofWords [0xE0000000]) = some (.ok 1 0) := by decide

/-! ### The canonical form -/

theorem test_place_zero_removes : ((Buffer.ofBytes [1, 2, 3, 4]).place 1 [0]).cells = [(0, 1), (2, 3), (3, 4)] := by decide
theorem test_wf_refuses_zero : Buffer.wf { len := 4, cells := [(1, 0)] } = false := by decide
theorem test_wf_refuses_order : Buffer.wf { len := 4, cells := [(2, 1), (1, 1)] } = false := by decide
theorem test_wf_refuses_outside : Buffer.wf { len := 4, cells := [(4, 1)] } = false := by decide

/-! ### Witnesses: states and operands that meet the hypotheses of each statement -/

theorem witness_CallEntry_malformed :
    (State.reset.present (Buffer.ofBytes [0xE5, 0, 0, 0, 0])).phase ≠ .scan ∧
    (State.reset.present (Buffer.ofBytes [0xE5, 0, 0, 0, 0])).start = some (Buffer.ofBytes [0xE5, 0, 0, 0, 0]) ∧
    (Buffer.ofBytes [0xE5, 0, 0, 0, 0]).len % 4 ≠ 0 := by decide

theorem witness_CallEntry_aligned :
    ((doneWith 1 2).present (Buffer.ofBytes [])).phase ≠ .scan ∧
    ((doneWith 1 2).present (Buffer.ofBytes [])).start = some (Buffer.ofBytes []) ∧
    (Buffer.ofBytes []).len % 4 = 0 := by decide

theorem witness_NotScanning : State.reset.phase ≠ .scan ∧ (doneWith 1 2).phase ≠ .scan ∧ State.reset.start = none := by
  decide

theorem witness_StartDuringScan :
    ((scanAt [0xE0000000] 0 0 0).present Buffer.empty).phase = .scan ∧
    ((scanAt [0xE0000000] 0 0 0).present Buffer.empty).start = some Buffer.empty := by decide

theorem witness_EndOfScan_at_end : (scanAt [0xE0000000] 1 1 0).phase = .scan ∧ (scanAt [0xE0000000] 1 1 0).start = none ∧
    (scanAt [0xE0000000] 1 1 0).buf.wordCount ≤ (scanAt [0xE0000000] 1 1 0).i := by decide

theorem witness_EndOfScan_before : (scanAt [0xE0000000] 0 0 0).i < (scanAt [0xE0000000] 0 0 0).buf.wordCount := by decide

theorem scanning_of {s : State} (h : (s.phase = .scan ∧ s.start = none) ∧ s.i < s.buf.wordCount) : s.Scanning :=
  ⟨h.1.1, h.1.2, h.2⟩

theorem witness_StepRuns : (scanAt [0xE0123456] 0 0 0).Scanning ∧
    (scanAt [0xE0123456] 0 0 0).buf.byte (4 * 0) = some 0xE0 ∧ (scanAt [0xE0123456] 0 0 0).buf.byte (4 * 0 + 1) = some 0x12 ∧
    (scanAt [0xE0123456] 0 0 0).buf.byte (4 * 0 + 2) = some 0x34 ∧
    (scanAt [0xE0123456] 0 0 0).buf.byte (4 * 0 + 3) = some 0x56 ∧
    decodeBytes [0xE0, 0x12, 0x34, 0x56] = .ok (.ppsSecond 0x123456, []) :=
  ⟨scanning_of (by decide), by decide, by decide, by decide, by decide, rfl⟩

theorem witness_Placed : State.reset.buf.wf = true ∧ decodeTableWord 32 0xE1000000 = some (.hit 0xE1 0) := by decide

theorem witness_DecodeOfEncode : Instr.wellFormed (.hit 0xFF 0xFFFFFF) = true ∧ Instr.wellFormed (.ppsSecond 0) = true := by
  decide

theorem witness_PartialWord : ([0xE0, 0, 0] : List Byte).length < 4 ∧ ([] : List Byte).length < 4 := by decide

theorem witness_RecordReadBack :
    Record.wellFormed (.hit 0x01 0 0 5 []) = true ∧ Record.wellFormed (.hit 0xFF 0 15 0 [1, 2, 3, 4, 5, 6, 7]) = true := by
  decide

theorem witness_RecordRead :
    readRecord [0x01ABCDEF, 0x30000000, 0xDEADBEEF, 0xE0000000] =
      some (.hit 0x01 0xABCDEF 3 0 [0xDEADBEEF], [0xE0000000]) := by decide

theorem witness_WordsAreBigEndian : 1 < (Buffer.ofWords [0xE0123456, 0x2FFFFFFF]).wordCount := by decide

theorem witness_Canonical : (Buffer.ofBytes [1, 0]).wf = true ∧ Buffer.wf { len := 2, cells := [(0, 1)] } = true ∧
    (Buffer.ofBytes [1, 0]).len = 2 ∧ ∀ a, (Buffer.ofBytes [1, 0]).byte a = Buffer.byte { len := 2, cells := [(0, 1)] } a :=
  ⟨by decide, by decide, by decide, fun _ => rfl⟩

/-- Another configuration word, not read, is another buffer with the same words read. -/
theorem witness_StepDepends :
    (scanAt [0xE5000000, 1] 0 0 0).phase = .scan ∧ (Buffer.ofWords [0xE5000000, 2]).len = (scanAt [0xE5000000, 1] 0 0 0).buf.len ∧
    stepReads (scanAt [0xE5000000, 1] 0 0 0) = [0] ∧
    (Buffer.ofWords [0xE5000000, 2]).word 0 = (scanAt [0xE5000000, 1] 0 0 0).buf.word 0 ∧
    step (scanAt [0xE5000000, 1] 0 0 0) = .next (advance 2 (scanAt [0xE5000000, 1] 0 0 0)) :=
  ⟨by decide, by decide, by decide, by decide, rfl⟩

/-- The cursor is in range, at both ends of the range (R24). -/
theorem witness_CountsFit : (scanAt [0x01000000, 0] 0 0 0).CountsFit ∧ (scanAt [0x01000000, 0] 2 0 1).CountsFit :=
  ⟨⟨by decide, by decide⟩, ⟨by decide, by decide⟩⟩

theorem witness_ScanningNoStart : (scanAt [0x01000000, 0] 0 0 0).phase = .scan ∧ (scanAt [0x01000000, 0] 0 0 0).start = none := by
  decide

theorem witness_PpsSecond : (scanAt [0xE0FFFFFF] 0 0 0).Scanning ∧
    (scanAt [0xE0FFFFFF] 0 0 0).buf.word (scanAt [0xE0FFFFFF] 0 0 0).i = some (0xE0#8 ++ (0xFFFFFF : Lo24)) :=
  ⟨scanning_of (by decide), by decide⟩

theorem witness_PpsYear : (scanAt [0xE4000007] 0 0 0).Scanning ∧
    (scanAt [0xE4000007] 0 0 0).buf.word (scanAt [0xE4000007] 0 0 0).i = some (0xE4#8 ++ (7 : Lo24)) :=
  ⟨scanning_of (by decide), by decide⟩

theorem witness_DataFormat : (scanAt [0xE6000002] 0 0 0).Scanning ∧
    (scanAt [0xE6000002] 0 0 0).buf.word (scanAt [0xE6000002] 0 0 0).i = some (0xE6#8 ++ (2 : Lo24)) :=
  ⟨scanning_of (by decide), by decide⟩

/-- The second word is the last (exact end, R79); and the header is the last. -/
theorem witness_TrigConfig :
    (scanAt [0xE5000000, 0] 0 0 0).i + 1 < (scanAt [0xE5000000, 0] 0 0 0).buf.wordCount ∧
    (scanAt [0xE5000000] 0 0 0).buf.wordCount ≤ (scanAt [0xE5000000] 0 0 0).i + 1 ∧
    (scanAt [0xE5000000] 0 0 0).Scanning ∧
    (scanAt [0xE5000000] 0 0 0).buf.word (scanAt [0xE5000000] 0 0 0).i = some (0xE5#8 ++ (0 : Lo24)) :=
  ⟨by decide, by decide, scanning_of (by decide), by decide⟩

/-- The shortest and the longest HIT, each ending exactly at the end (V11, V14). -/
theorem witness_HitFits :
    ((scanAt [0, 0] 0 0 0).buf.word 1 = some ((0 : Nibble) ++ (0 : Lo28)) ∧
      0 + 2 + (0 : Nibble).toNat / 2 ≤ (scanAt [0, 0] 0 0 0).buf.wordCount) ∧
    ((scanAt (List.replicate 9 0xFFFFFFFF) 0 0 0).buf.word 1 = some ((15 : Nibble) ++ (0xFFFFFFF : Lo28)) ∧
      0 + 2 + (15 : Nibble).toNat / 2 ≤ (scanAt (List.replicate 9 0xFFFFFFFF) 0 0 0).buf.wordCount) := by decide

/-- No count word (S5); one payload word short (V15). -/
theorem witness_HitTruncated :
    (scanAt [0x01000000] 0 0 0).buf.wordCount ≤ (scanAt [0x01000000] 0 0 0).i + 1 ∧
    (scanAt (List.replicate 8 0xFFFFFFFF) 0 0 0).buf.word 1 = some ((15 : Nibble) ++ (0xFFFFFFF : Lo28)) ∧
    (scanAt (List.replicate 8 0xFFFFFFFF) 0 0 0).buf.wordCount < 0 + 2 + (15 : Nibble).toNat / 2 := by decide

theorem witness_EveryOtherTag : (scanAt [0xE1000000, 0x1FFFFFFF] 0 0 0).Scanning ∧
    (scanAt [0xE1000000, 0x1FFFFFFF] 0 0 0).buf.word 0 = some ((0xE1 : Tag) ++ (0 : Lo24)) ∧
    0 + 1 < (scanAt [0xE1000000, 0x1FFFFFFF] 0 0 0).buf.wordCount ∧
    (scanAt [0xE7000000] 0 0 0).Scanning ∧ (scanAt [0xE7000000] 0 0 0).buf.wordCount ≤ 0 + 1 :=
  ⟨scanning_of (by decide), by decide, by decide, scanning_of (by decide), by decide⟩

theorem witness_MarkerFrame :
    Instr.kind (.ppsYear 0) ≠ .hit ∧ exec (.ppsYear 0) (scanAt [0xE4000000] 0 0 0) = .next (advance 1 (scanAt [0xE4000000] 0 0 0)) ∧
    Instr.kind (.trigConfig 0) ≠ .hit ∧
    exec (.trigConfig 0) (scanAt [0xE5000000] 0 0 0) = .next (raiseTruncated .trigConfig (scanAt [0xE5000000] 0 0 0)) :=
  ⟨by decide, rfl, by decide, rfl⟩

theorem witness_HitFrame :
    Instr.kind (.hit 1 0) = .hit ∧
    exec (.hit 1 0) (scanAt [0x01000000, 0] 0 0 0) = .next (advance 2 (countHit (scanAt [0x01000000, 0] 0 0 0))) ∧
    exec (.hit 1 0) (scanAt [0x01000000] 0 0 0) = .next (raiseTruncated .hit (scanAt [0x01000000] 0 0 0)) :=
  ⟨by decide, rfl, rfl⟩

/-- A step that stays in SCAN, over a HIT with n = 3: the hypotheses of the statements on the cursor and the counters. -/
theorem witness_CursorAndCounters : (scanAt [0x01000000, 0x30000000, 0] 0 0 0).Scanning ∧
    (scanAt [0x01000000, 0x30000000, 0] 0 0 0).buf.word 0 = some 0x01000000 ∧
    step (scanAt [0x01000000, 0x30000000, 0] 0 0 0) =
      .next (advance 3 (countHit (scanAt [0x01000000, 0x30000000, 0] 0 0 0))) ∧
    (advance 3 (countHit (scanAt [0x01000000, 0x30000000, 0] 0 0 0))).hits ≠ (scanAt [0x01000000, 0x30000000, 0] 0 0 0).hits :=
  ⟨scanning_of (by decide), by decide, rfl, by decide⟩

theorem witness_CounterSeconds :
    step (scanAt [0xE0000000] 0 0 0) = .next (advance 1 (countSecond (scanAt [0xE0000000] 0 0 0))) ∧
    (advance 1 (countSecond (scanAt [0xE0000000] 0 0 0))).seconds ≠ (scanAt [0xE0000000] 0 0 0).seconds :=
  ⟨rfl, by decide⟩

/-- The three sites T1, T2, T3 (R107): each ends in FAULT. -/
theorem witness_ThreeSites :
    (scanAt [0xE5000000] 0 0 0).Scanning ∧ (scanAt [0xE7000000] 0 0 0).Scanning ∧ (scanAt [0xE7000000, 0x20000000] 0 0 0).Scanning ∧
    step (scanAt [0xE5000000] 0 0 0) = .next (raiseTruncated .trigConfig (scanAt [0xE5000000] 0 0 0)) ∧
    step (scanAt [0xE7000000] 0 0 0) = .next (raiseTruncated .hit (scanAt [0xE7000000] 0 0 0)) ∧
    step (scanAt [0xE7000000, 0x20000000] 0 0 0) = .next (raiseTruncated .hit (scanAt [0xE7000000, 0x20000000] 0 0 0)) ∧
    (raiseTruncated .hit (scanAt [0xE7000000, 0x20000000] 0 0 0)).phase = .fault :=
  ⟨scanning_of (by decide), scanning_of (by decide), scanning_of (by decide), rfl, rfl, rfl, by decide⟩

theorem witness_Unaligned : ([0xE0] : List Byte).length % 4 ≠ 0 ∧ (List.replicate 7 0 : List Byte).length % 4 ≠ 0 := by decide

theorem witness_ErrorPorts :
    (raise (.malformedLength 5) State.reset).phase = .fault ∧
    (raise (.malformedLength 5) State.reset).err = some (.malformedLength 5) ∧
    (raise (.truncatedFrame .hit 3) State.reset).err = some (.truncatedFrame .hit 3) := by decide

/-- The invariant holds in SCAN, at the start and at the end of a two-word HIT. -/
theorem witness_Inv : (scanAt [0x01000000, 0] 0 0 0).Inv ∧ (scanAt [0x01000000, 0] 2 0 1).Inv ∧
    step (scanAt [0x01000000, 0] 0 0 0) = .next (advance 2 (countHit (scanAt [0x01000000, 0] 0 0 0))) :=
  ⟨⟨by decide, by simp [scanAt, State.reset], by decide, rfl, by decide, by decide⟩,
    ⟨by decide, by simp [scanAt, State.reset], by decide, rfl, by decide, by decide⟩, rfl⟩

theorem witness_Counters : (scanAt [0x01000000, 0] 2 0 1).phase = .scan ∧ Build.default.Valid ∧
    (scanAt [0x01000000, 0] 2 0 1).buf.len ≤ Build.default.maxBytes := by decide

/-- V2 and S1 differ in ignored bits only. -/
theorem witness_IgnoredBits : (Buffer.ofWords [0xE0FFFFFF]).len = (Buffer.ofWords [0xE0000000]).len ∧
    examined (Buffer.ofWords [0xE0FFFFFF]) 2 0 = examined (Buffer.ofWords [0xE0000000]) 2 0 ∧
    Buffer.ofWords [0xE0FFFFFF] ≠ Buffer.ofWords [0xE0000000] := by decide

/-- The largest word_count of a 32-bit and of a 4-bit cursor, with the cursor on the last word and on the one before. -/
theorem witness_FixedWidthBounds : (2 ^ 32 - 8) + 7 < 2 ^ 32 ∧ 2 ^ 32 - 9 < 2 ^ 32 - 8 ∧ (2 ^ 32 - 10) + 1 < 2 ^ 32 - 8 ∧
    8 + 7 < 2 ^ 4 ∧ 7 < 8 ∧ 6 + 1 < 8 := by decide

/-- The smallest width WrappedSumWouldPassTheTest speaks of. -/
theorem witness_WrappedSum : 2 ≤ 2 ∧ (BitVec.ofNat 2 1 + 2#2 + fixedExtra 2 2).toNat = 0 := by decide

/-- The smallest and another build DefaultBuildsMeetTheConstraints speaks of. -/
theorem witness_DefaultBuilds : 3 ≤ 3 ∧ 4 ≤ 5 ∧ ({ idxW := 3, cntW := 3 } : Build).Valid := by decide

/-- Valid builds, the default one and one with no parameter at its default; buffers on both sides of MAX_BYTES. -/
theorem witness_FixedWidthBuild :
    Build.default.Valid ∧ ({ idxW := 4, cntW := 7, lenW := 5, maxBytes := 16 } : Build).Valid ∧
    (Buffer.ofWords [0xE0000000]).len ≤ 16 ∧ 16 < (Buffer.ofWords (List.replicate 5 0xE0000000)).len ∧
    Buffer.len { len := Build.default.maxBytes, cells := [] } ≤ Build.default.maxBytes ∧
    Build.default.maxBytes < Buffer.len { len := Build.default.maxBytes + 4, cells := [] } := by decide

/-- A1 and A2. -/
theorem witness_Additive : outcomeOf [0xE0, 0, 0, 0] = some (.ok 1 0) ∧
    outcomeOf [0x01, 0, 0, 0, 0x30, 0, 0, 0, 0, 0, 0, 0] = some (.ok 0 1) ∧
    outcomeOf [0x01, 0, 0, 0] = some (.truncatedFrame .hit 0) := by decide

theorem witness_WellFormedStream : ∀ r ∈ [Record.trigConfig 0 0xE0FFFFFF, .hit 0x42 0 4 0 [0xE0000000, 0xE0000000], .ppsSecond 0],
    r.wellFormed = true := by decide

theorem witness_OnlyWellFormed : outcomeOfWords [0x01000000, 0x00000000] = some (.ok 0 1) := by decide

/-- A HIT of n = 4 and its two payload words, after a whole record. -/
theorem witness_Skipped : isMarkerTag 0x42 = false ∧ [0xE0000000, 0x01000000].length = (4 : Nibble).toNat / 2 ∧
    [0, 0xE5000000].length = (4 : Nibble).toNat / 2 ∧ ∀ r ∈ [Record.trigConfig 0 0x01000000], r.wellFormed = true := by decide

/-- Two instances, one after a call, and a schedule that lets them take turns. -/
theorem witness_Instances : ([State.reset, returnOk State.reset] : List State)[1]? = some (returnOk State.reset) ∧
    (returnOk State.reset).phase ≠ .scan ∧
    callSteps (Buffer.ofWords [0xE0000000]) ≤ [0, 1, 1, 0, 1].count 1 := by decide

end Sys2Proof.Tests
end

/-!
PROOF. A call forgets the past (spec/10_state.md R20). The call entry overwrites every field but the model's own counter of
free values (`State.draws`, log 6), so the idea is that this counter is invisible: steps commute with setting it, and no
outcome shows it.
-/
namespace Sys2Proof.Machine

/-! ### Runs -/

theorem runSteps_succ {n : Nat} {s t : State} (h : step s = .next t) : runSteps (n + 1) s = runSteps n t := by
  simp [runSteps, h]

/-- Out of SCAN and with no start pending nothing happens, however many steps are made (R123). -/
theorem runSteps_awaiting {s : State} (hp : s.phase ≠ .scan) (hs : s.start = none) (n : Nat) : runSteps n s = some s := by
  have hstep : step s = .next s := by rw [step_not_scan hp, awaitStart_none hs]
  induction n with
  | zero => rfl
  | succ n ih => rw [runSteps_succ hstep, ih]

theorem callOutcome_eq_bind (n : Nat) (s : State) (b : Buffer) :
    callOutcome n s b = (runSteps n (s.present b)).bind State.outcome := by
  unfold callOutcome
  cases runSteps n (s.present b) <;> rfl

/-- The first step of a call is the call entry (R71). -/
theorem callOutcome_succ {s : State} (hp : s.phase ≠ .scan) (n : Nat) (b : Buffer) :
    callOutcome (n + 1) s b = (runSteps n (beginCall b (s.present b))).bind State.outcome := by
  have hstep : step (s.present b) = .next (beginCall b (s.present b)) := by
    rw [step_not_scan (by simpa using hp), awaitStart_some (State.present_start s b)]
  rw [callOutcome_eq_bind, runSteps_succ hstep]

/-! ### The meanings that test a bound, one equation per branch -/

theorem execTrigConfig_fits (lo24 : Lo24) {s : State} (h : s.i + 1 < s.buf.wordCount) :
    execTrigConfig lo24 s = .next (advance 2 s) := by
  simp [execTrigConfig, h]

theorem execTrigConfig_truncated (lo24 : Lo24) {s : State} (h : s.buf.wordCount ≤ s.i + 1) :
    execTrigConfig lo24 s = .next (raiseTruncated .trigConfig s) := by
  simp [execTrigConfig, Nat.not_lt.mpr h]

theorem execHit_counted (tag : Tag) (lo24 : Lo24) {s : State} {c : Word} (h : s.i + 1 < s.buf.wordCount)
    (hc : s.buf.word (s.i + 1) = some c) : execHit tag lo24 s = .next (finishHit (adcCountOf c) s) := by
  simp [execHit, secondWord, h, hc]

theorem execHit_truncated (tag : Tag) (lo24 : Lo24) {s : State} (h : s.buf.wordCount ≤ s.i + 1) :
    execHit tag lo24 s = .next (raiseTruncated .hit s) := by
  simp [execHit, Nat.not_lt.mpr h]

/-! ### The port `start` over a step -/

/-- An instruction leaves the host's start event alone. -/
theorem exec_start {i : Instr} {s t : State} (h : exec i s = .next t) : t.start = s.start := by
  obtain ⟨-, rfl⟩ | ⟨-, rfl⟩ | ⟨-, -, rfl⟩ | ⟨_, -, -, -, rfl⟩ | ⟨-, rfl⟩ := exec_cases h <;> rfl

/-- With no start pending a step always answers a next state, and no start is pending there. -/
theorem step_answers {s : State} (hs : s.start = none) : ∃ t, step s = .next t ∧ t.start = none := by
  by_cases hp : s.phase = .scan
  · obtain ⟨-, he⟩ | ⟨w, -, -, he⟩ := scanStep_cases s
    · exact ⟨returnOk s, by rw [step_scan hp hs, he], hs⟩
    · obtain ⟨t, ht⟩ := exec_answers (decodeWord w) s
      exact ⟨t, by rw [step_scan hp hs, he, ht], (exec_start ht).trans hs⟩
  · exact ⟨s, by rw [step_not_scan hp, awaitStart_none hs], hs⟩

/-! ### The counter of free values is invisible -/

/-- The state with another number of free values drawn (log 6). -/
def State.setDraws (d : Nat) (s : State) : State :=
  { s with draws := d }

@[simp] theorem State.setDraws_phase (d : Nat) (s : State) : (s.setDraws d).phase = s.phase := rfl
@[simp] theorem State.setDraws_i (d : Nat) (s : State) : (s.setDraws d).i = s.i := rfl
@[simp] theorem State.setDraws_buf (d : Nat) (s : State) : (s.setDraws d).buf = s.buf := rfl
@[simp] theorem State.setDraws_start (d : Nat) (s : State) : (s.setDraws d).start = s.start := rfl
@[simp] theorem State.setDraws_outcome (d : Nat) (s : State) : (s.setDraws d).outcome = s.outcome := rfl

theorem finishHit_setDraws (d : Nat) (n : Nibble) (s : State) :
    finishHit n (s.setDraws d) = (finishHit n s).setDraws d := by
  unfold finishHit
  rw [apply_ite (State.setDraws d)]
  rfl

theorem exec_setDraws (d : Nat) {i : Instr} {s t : State} (h : exec i s = .next t) :
    exec i (s.setDraws d) = .next (t.setDraws d) := by
  cases i with
  | ppsSecond lo => cases h; rfl
  | ppsYear lo => cases h; rfl
  | dataFormat lo => cases h; rfl
  | trigConfig lo =>
    obtain ⟨hi, he⟩ | ⟨hi, he⟩ := execTrigConfig_cases lo s
    · cases he.symm.trans h
      exact execTrigConfig_fits lo (s := s.setDraws d) hi
    · cases he.symm.trans h
      exact execTrigConfig_truncated lo (s := s.setDraws d) hi
  | hit tag lo =>
    obtain ⟨c, hi, hc, he⟩ | ⟨hi, he⟩ := execHit_cases tag lo s
    · cases he.symm.trans h
      rw [← finishHit_setDraws]
      exact execHit_counted tag lo (s := s.setDraws d) hi hc
    · cases he.symm.trans h
      exact execHit_truncated tag lo (s := s.setDraws d) hi

theorem scanStep_setDraws (d : Nat) {s t : State} (h : scanStep s = .next t) :
    scanStep (s.setDraws d) = .next (t.setDraws d) := by
  obtain ⟨hi, he⟩ | ⟨w, hi, hw, he⟩ := scanStep_cases s
  · rw [he] at h
    cases h
    exact scanStep_end hi
  · rw [scanStep_record (s := s.setDraws d) hi hw]
    exact exec_setDraws d (he ▸ h)

/-- With no start pending, a step neither uses nor changes the counter of free values. -/
theorem step_setDraws (d : Nat) {s t : State} (hs : s.start = none) (h : step s = .next t) :
    step (s.setDraws d) = .next (t.setDraws d) := by
  by_cases hp : s.phase = .scan
  · rw [step_scan hp hs] at h
    rw [step_scan (s := s.setDraws d) hp hs]
    exact scanStep_setDraws d h
  · rw [step_not_scan hp, awaitStart_none hs] at h
    cases h
    rw [step_not_scan (s := s.setDraws d) hp, awaitStart_none (s := s.setDraws d) hs]

theorem runSteps_setDraws (d n : Nat) {s : State} (hs : s.start = none) :
    runSteps n (s.setDraws d) = (runSteps n s).map (State.setDraws d) := by
  induction n generalizing s with
  | zero => rfl
  | succ n ih =>
    obtain ⟨t, ht, hts⟩ := step_answers hs
    rw [runSteps_succ ht, runSteps_succ (step_setDraws d hs ht), ih hts]

/-- No number of steps makes the counter of free values visible. -/
theorem runSteps_setDraws_outcome (d n : Nat) {s : State} (hs : s.start = none) :
    (runSteps n (s.setDraws d)).bind State.outcome = (runSteps n s).bind State.outcome := by
  rw [runSteps_setDraws d n hs, Option.bind_map]
  rfl

/-! ### The call, in terms of its buffer alone -/

/-- A length that is no multiple of 4: the call is over at its entry (R71, R106). -/
theorem callOutcome_malformed {b : Buffer} (hb : b.aligned = false) {s : State} (hp : s.phase ≠ .scan) (n : Nat) :
    callOutcome (n + 1) s b = some (.malformedLength b.len) := by
  rw [callOutcome_succ hp, beginCall_malformed hb, runSteps_awaiting (by simp) (by simp)]
  rfl

/-- Any other length: the run from the start-of-call values, whichever instance they were written over (R22, R130). -/
theorem callOutcome_aligned {b : Buffer} (hb : b.aligned = true) {s : State} (hp : s.phase ≠ .scan) (n : Nat) :
    callOutcome (n + 1) s b = (runSteps n (startValues b State.reset)).bind State.outcome := by
  have hstart : startValues b (s.present b) = (startValues b State.reset).setDraws s.draws := rfl
  rw [callOutcome_succ hp, beginCall_aligned hb, hstart, runSteps_setDraws_outcome _ _ (startValues_start b _)]

/-- Settles O3: by either branch of the call entry (R71), the outcome is an expression in which the state does not occur. -/
theorem callForgetsThePast : Obligations.CallForgetsThePast := by
  intro n s s' b hs hs'
  cases hb : b.aligned with
  | false => rw [callOutcome_malformed hb hs, callOutcome_malformed hb hs']
  | true => rw [callOutcome_aligned hb hs, callOutcome_aligned hb hs']

end Sys2Proof.Machine

/-!
PROOF. The buffer's words are its bytes, and no step reads outside them (spec/20_memory.md R31, R32, R35). The end of the
buffer is said once, as an index and as an offset (`Buffer.lt_wordCount_iff`); every read follows a check of the index.
-/
namespace Sys2Proof.Machine

/-! ### A word as a number -/

/-- R32's formula: the byte at the lowest offset is the most significant. -/
theorem wordOfBytes_toNat (b0 b1 b2 b3 : Byte) :
    (wordOfBytes b0 b1 b2 b3).toNat = b0.toNat * 2 ^ 24 + b1.toNat * 2 ^ 16 + b2.toNat * 2 ^ 8 + b3.toNat := by
  simp only [wordOfBytes, append_toNat]
  omega

/-- The ADC-channel count is the high nibble of the first byte (R32). -/
theorem adcCountOf_toNat_eq_tagOf_div (w : Word) : (adcCountOf w).toNat = (tagOf w).toNat / 16 := by
  rw [adcCountOf_toNat, tagOf_toNat, Nat.shiftRight_add w.toNat 24 4, Nat.shiftRight_eq_div_pow _ 4]

/-! ### The end of the buffer -/

/-- A word of the stream exists exactly where the last of its four bytes does (R31, R39). -/
theorem Buffer.lt_wordCount_iff {b : Buffer} {k : Nat} : k < b.wordCount ↔ 4 * k + 3 < b.len := by
  simp only [Buffer.wordCount, Config.wordBytes]
  omega

/-- Settles O18: the word read is assembled from its four bytes, and R32's value, tag and nibble are facts about any four
bytes. -/
theorem wordsAreBigEndian : Obligations.WordsAreBigEndian := by
  intro b k hk
  have hlen : 4 * k + 3 < b.len := Buffer.lt_wordCount_iff.mp hk
  refine ⟨_, _, _, _, _, Buffer.byte_eq_some (by omega), Buffer.byte_eq_some (by omega), Buffer.byte_eq_some (by omega),
    Buffer.byte_eq_some hlen, Buffer.word_of_lt hk, wordOfBytes_toNat _ _ _ _, tagOf_wordOfBytes _ _ _ _, ?_⟩
  rw [adcCountOf_toNat_eq_tagOf_div, tagOf_wordOfBytes]

/-! ### The fault is unreachable -/

/-- A step answers a next state or is refused, in every state: the read that would fault is made after its check only. -/
theorem step_ne_fault (s : State) (r : Fault) : step s ≠ .fault r := by
  cases hs : s.start with
  | none =>
    obtain ⟨t, ht, -⟩ := step_answers hs
    simp [ht]
  | some b =>
    by_cases hp : s.phase = .scan
    · simp [step, hp, hs]
    · simp [step_not_scan hp]

/-! ### The reads are in the stream -/

/-- The header read follows the end-of-scan test, the count-word read the first bounds test (R35, R72, R98). -/
theorem stepReads_lt_wordCount {s : State} {k : Nat} (h : k ∈ stepReads s) : k < s.buf.wordCount := by
  obtain ⟨⟨-, -, hi⟩, w, -, hk⟩ := mem_stepReads h
  obtain rfl | ⟨-, hi', rfl⟩ := mem_instrReads hk
  · exact hi
  · exact hi'

/-- Settles O20: the checks before the reads shut out the fault and bound every index read. -/
theorem noStepReadsPastTheEnd : Obligations.NoStepReadsPastTheEnd := by
  intro s
  refine ⟨step_ne_fault s, fun k hk => ?_⟩
  have hlt : k < s.buf.wordCount := stepReads_lt_wordCount hk
  exact ⟨hlt, Buffer.lt_wordCount_iff.mp hlt⟩

end Sys2Proof.Machine

/-!
PROOF. The cursor moves by the record's width (spec/30_encoding.md R57). An instruction that does not end the scan in FAULT
has consumed its record, and each kind's advance is its width.
-/
namespace Sys2Proof.Machine

/-! ### The width table -/

@[simp] theorem width_ppsSecond (n : Nibble) : width .ppsSecond n = 1 := rfl
@[simp] theorem width_ppsYear (n : Nibble) : width .ppsYear n = 1 := rfl
@[simp] theorem width_trigConfig (n : Nibble) : width .trigConfig n = 2 := rfl
@[simp] theorem width_dataFormat (n : Nibble) : width .dataFormat n = 1 := rfl

/-- R58's floor division, with the divisor by its number. -/
theorem extraWords_eq_div (n : Nibble) : extraWords n = n.toNat / 2 := rfl

/-! ### A consumed record -/

/-- With a record under the cursor the step is the meaning of its instruction (R73, R74). -/
theorem step_record {s : State} {w : Word} (hs : s.Scanning) (hw : s.buf.word s.i = some w) :
    step s = exec (decodeWord w) s := by
  obtain ⟨hp, hstart, hi⟩ := hs
  rw [step_scan hp hstart, scanStep_record hi hw]

/-- An instruction that raises no error moves the cursor by its record's width (R57); the width of a HIT is that of its
count word's nibble (R96), the other kinds' widths depend on no nibble. -/
theorem exec_cursor_of_phase_ne_fault {i : Instr} {s t : State} (h : exec i s = .next t) (ht : t.phase ≠ .fault) :
    ∃ n : Nibble, t.i = s.i + width i.kind n ∧
      (i.kind = .hit → (s.buf.word (s.i + 1)).map adcCountOf = some n) := by
  obtain ⟨hk, rfl⟩ | ⟨hk | hk, rfl⟩ | ⟨hk, -, rfl⟩ | ⟨c, hk, hc, -, rfl⟩ | ⟨-, rfl⟩ := exec_cases h
  · exact ⟨0, by simp [hk]⟩
  · exact ⟨0, by simp [hk]⟩
  · exact ⟨0, by simp [hk]⟩
  · exact ⟨0, by simp [hk]⟩
  · exact ⟨adcCountOf c, by simp [hk, hc]⟩
  · exact absurd (raiseTruncated_phase i.kind s) ht

/-- Settles O31: the table by its equations; the step is the decoded instruction's, whose kind is the tag's, and one that
stays in SCAN has raised no error. -/
theorem cursorMovesByTheRecordWidth : Obligations.CursorMovesByTheRecordWidth := by
  refine ⟨fun n => ⟨width_ppsSecond n, width_ppsYear n, width_trigConfig n, width_dataFormat n, ?_⟩, ?_⟩
  · rw [width_hit, extraWords_eq_div]
  · intro s t w hs hw h ht
    rw [step_record hs hw] at h
    rw [← decodeWord_kind]
    exact exec_cursor_of_phase_ne_fault h (by simp [ht])

end Sys2Proof.Machine

/-!
PROOF. The scan makes progress (spec/40_scan_control.md R72, R76). An instruction that raises no error moves the cursor
forward over words that exist, so the words that remain bound the steps that remain. A call is over where it shows an
outcome: that says DONE or FAULT, and that the error is there.
-/
namespace Sys2Proof.Machine

/-! ### The end of the words -/

/-- Only a running scan with a record under its cursor reads (R37). -/
theorem stepReads_eq_nil {s : State} (h : ¬ s.Scanning) : stepReads s = [] :=
  List.eq_nil_iff_forall_not_mem.mpr fun _ hk => h (mem_stepReads hk).1

/-- Settles O6: the two sides of the end-of-scan test, and the range of the cursor. -/
theorem endOfScanReturnsCounters : Obligations.EndOfScanReturnsCounters := by
  intro s hp hs
  refine ⟨fun hi => ⟨?_, ?_, rfl⟩, fun hi => ⟨_, Buffer.word_of_lt hi⟩, fun hfit => ?_⟩
  · rw [step_scan hp hs, scanStep_end hi]
    rfl
  · exact stepReads_eq_nil fun ⟨_, _, hlt⟩ => Nat.not_lt.mpr hi hlt
  · obtain ⟨-, hi⟩ := hfit
    exact ⟨fun hle => Nat.le_antisymm hi hle, fun heq => heq.ge⟩

/-! ### One step of a scan -/

/-- An instruction leaves the buffer alone (R36). -/
theorem exec_buf {i : Instr} {s t : State} (h : exec i s = .next t) : t.buf = s.buf := by
  obtain ⟨-, rfl⟩ | ⟨-, rfl⟩ | ⟨-, -, rfl⟩ | ⟨_, -, -, -, rfl⟩ | ⟨-, rfl⟩ := exec_cases h <;> rfl

/-- A step of a scan leaves the buffer alone (R36). -/
theorem step_scan_buf {s t : State} (hp : s.phase = .scan) (hs : s.start = none) (h : step s = .next t) :
    t.buf = s.buf := by
  rw [step_scan hp hs] at h
  obtain ⟨-, he⟩ | ⟨w, -, -, he⟩ := scanStep_cases s
  · cases he.symm.trans h
    rfl
  · exact exec_buf (he.symm.trans h)

/-- A truncated record shows its error (R107). -/
theorem raiseTruncated_outcome (k : Kind) (s : State) :
    (raiseTruncated k s).outcome = some (.truncatedFrame k s.i) := rfl

theorem returnOk_outcome (s : State) : (returnOk s).outcome = some (.ok s.seconds s.hits) := rfl

/-- An outcome is shown in DONE and FAULT only (R70). -/
theorem phase_of_outcome_isSome {s : State} (h : s.outcome.isSome) : s.phase = .done ∨ s.phase = .fault := by
  cases hp : s.phase with
  | idle => simp [State.outcome, hp] at h
  | scan => simp [State.outcome, hp] at h
  | done => exact .inl rfl
  | fault => exact .inr rfl

/-- A record under the cursor ends the call or is stepped over, and the words stepped over exist (R76). -/
theorem exec_progress {i : Instr} {s t : State} (hi : s.i < s.buf.wordCount) (h : exec i s = .next t) :
    t.outcome.isSome ∨ (t.phase = s.phase ∧ s.i < t.i ∧ t.i ≤ s.buf.wordCount) := by
  obtain ⟨-, rfl⟩ | ⟨-, rfl⟩ | ⟨-, hi', rfl⟩ | ⟨c, -, -, hfit, rfl⟩ | ⟨-, rfl⟩ := exec_cases h
  · exact .inr ⟨rfl, Nat.lt_succ_self _, hi⟩
  · exact .inr ⟨rfl, Nat.lt_succ_self _, hi⟩
  · exact .inr ⟨rfl, Nat.lt_add_of_pos_right Nat.two_pos, hi'⟩
  · refine .inr ⟨rfl, ?_, ?_⟩ <;> simp only [advance_i, countHit_i] <;> omega
  · simp [raiseTruncated_outcome]

/-- A step of a scan ends the call, or goes on with the cursor further on and in range (R76). -/
theorem step_progress {s : State} (hp : s.phase = .scan) (hs : s.start = none) :
    ∃ t, step s = .next t ∧ t.start = none ∧
      (t.outcome.isSome ∨ (t.phase = .scan ∧ s.i < t.i ∧ t.i ≤ s.buf.wordCount)) := by
  obtain ⟨t, ht, hts⟩ := step_answers hs
  refine ⟨t, ht, hts, ?_⟩
  rw [step_scan hp hs] at ht
  obtain ⟨-, he⟩ | ⟨w, hi, -, he⟩ := scanStep_cases s
  · cases he.symm.trans ht
    simp [returnOk_outcome]
  · rw [← hp]
    exact exec_progress hi (he.symm.trans ht)

/-! ### The whole scan -/

/-- More steps than words remain end the call (R76). -/
theorem scan_ends {n : Nat} {s : State} (hp : s.phase = .scan) (hs : s.start = none) (hi : s.i ≤ s.buf.wordCount)
    (hn : s.buf.wordCount - s.i < n) : ∃ t, runSteps n s = some t ∧ t.outcome.isSome := by
  induction n generalizing s with
  | zero => omega
  | succ n ih =>
    obtain ⟨t, ht, hts, hover | ⟨htp, hlt, hle⟩⟩ := step_progress hp hs
    · have hne : t.phase ≠ .scan := by obtain h | h := phase_of_outcome_isSome hover <;> simp [h]
      exact ⟨t, by rw [runSteps_succ ht, runSteps_awaiting hne hts], hover⟩
    · have hbuf : t.buf = s.buf := step_scan_buf hp hs ht
      rw [runSteps_succ ht]
      exact ih htp hts (hbuf ▸ hle) (by rw [hbuf]; omega)

/-- Settles O42: one step by `step_progress`, all of them by `scan_ends`; an outcome is shown in DONE and FAULT only. -/
theorem everyScanEndsByProgress : Obligations.EveryScanEndsByProgress := by
  intro s hp hs
  constructor
  · obtain ⟨t, ht, -, hover | hscan⟩ := step_progress hp hs
    · exact ⟨t, ht, (phase_of_outcome_isSome hover).imp_right .inl⟩
    · exact ⟨t, ht, .inr (.inr hscan)⟩
  · intro hi
    obtain ⟨t, ht, hover⟩ := scan_ends hp hs hi (Nat.lt_succ_self _)
    exact ⟨t, ht, phase_of_outcome_isSome hover⟩

end Sys2Proof.Machine

/-!
PROOF. The machine computes the reference function (spec/40_scan_control.md R77). The body of the reference loop and one
step of the machine are related by reading the state after the step as an answer of the body (`State.loopResult`): the two
agree record by record, so the loop and the run agree at every fuel.
-/
namespace Sys2Proof.Machine

/-! ### The reference function, by kinds and nibbles -/

/-- R77's case on the tag number is the tag map of R53 followed by this case on the kind. -/
def loopKind (b : Buffer) (k : Kind) (i seconds hits : Nat) : Option LoopResult :=
  match k with
  | .ppsSecond => some (.again (i + 1) (seconds + 1) hits)
  | .trigConfig =>
    some (if i + 1 < b.wordCount then .again (i + 2) seconds hits else .ended (.truncatedFrame .trigConfig i))
  | .ppsYear => some (.again (i + 1) seconds hits)
  | .dataFormat => some (.again (i + 1) seconds hits)
  | .hit => loopHit b i seconds hits

/-- Both test the tags in the same order, one on numbers and one on bit vectors. -/
theorem loopCase_eq_loopKind (b : Buffer) (t : Tag) (i seconds hits : Nat) :
    loopCase b t.toNat i seconds hits = loopKind b (kindOfTag t) i seconds hits := by
  simp only [loopCase, kindOfTag, BitVec.toNat_inj, apply_ite (fun k => loopKind b k i seconds hits)]
  simp only [loopKind, apply_ite some]

/-- R77's payload length is that of the count word's nibble (R58, R96). -/
theorem loop_extra_eq_extraWords (c : Word) : (c.toNat >>> 28 &&& 0xF) / 2 = extraWords (adcCountOf c) := by
  have hlt : (adcCountOf c).toNat < 2 ^ 4 := (adcCountOf c).isLt
  rw [extraWords_eq_div, ← adcCountOf_toNat, show 0xF = 2 ^ 4 - 1 from rfl, Nat.and_two_pow_sub_one_of_lt_two_pow hlt]

theorem loopHit_counted {b : Buffer} {i : Nat} {c : Word} (hi : i + 1 < b.wordCount) (hc : b.word (i + 1) = some c)
    (hfit : i + 2 + extraWords (adcCountOf c) ≤ b.wordCount) (seconds hits : Nat) :
    loopHit b i seconds hits = some (.again (i + 2 + extraWords (adcCountOf c)) seconds (hits + 1)) := by
  simp [loopHit, hi, hc, loop_extra_eq_extraWords, hfit]

theorem loopHit_payload_truncated {b : Buffer} {i : Nat} {c : Word} (hi : i + 1 < b.wordCount)
    (hc : b.word (i + 1) = some c) (hfit : b.wordCount < i + 2 + extraWords (adcCountOf c)) (seconds hits : Nat) :
    loopHit b i seconds hits = some (.ended (.truncatedFrame .hit i)) := by
  simp [loopHit, hi, hc, loop_extra_eq_extraWords, Nat.not_le.mpr hfit]

theorem loopHit_header_truncated {b : Buffer} {i : Nat} (hi : b.wordCount ≤ i + 1) (seconds hits : Nat) :
    loopHit b i seconds hits = some (.ended (.truncatedFrame .hit i)) := by
  simp [loopHit, Nat.not_lt.mpr hi]

/-! ### A step is the body of the loop -/

/-- A state read as an answer of R77's loop body: in SCAN the loop goes on with the registers, elsewhere the call has ended
with the outcome shown. -/
def State.loopResult (s : State) : Option LoopResult :=
  if s.phase = .scan then some (.again s.i s.seconds s.hits) else s.outcome.map .ended

theorem State.loopResult_scan {s : State} (hp : s.phase = .scan) :
    s.loopResult = some (.again s.i s.seconds s.hits) := by
  simp [State.loopResult, hp]

theorem State.loopResult_over {s : State} (hp : s.phase ≠ .scan) : s.loopResult = s.outcome.map .ended := by
  simp [State.loopResult, hp]

theorem raiseTruncated_loopResult (k : Kind) (s : State) :
    (raiseTruncated k s).loopResult = some (.ended (.truncatedFrame k s.i)) := rfl

theorem finishHit_loopResult {s : State} {c : Word} (hp : s.phase = .scan) (hi : s.i + 1 < s.buf.wordCount)
    (hc : s.buf.word (s.i + 1) = some c) :
    (finishHit (adcCountOf c) s).loopResult = loopHit s.buf s.i s.seconds s.hits := by
  obtain ⟨hfit, he⟩ | ⟨hfit, he⟩ := finishHit_cases (adcCountOf c) s
  · rw [he, loopHit_counted hi hc hfit, State.loopResult_scan (by simpa using hp)]
    simp [Nat.add_assoc]
  · rw [he, loopHit_payload_truncated hi hc hfit, raiseTruncated_loopResult]

/-- An instruction run in SCAN answers what the reference function's case on its kind answers. -/
theorem exec_loopResult {i : Instr} {s t : State} (hp : s.phase = .scan) (h : exec i s = .next t) :
    t.loopResult = loopKind s.buf i.kind s.i s.seconds s.hits := by
  cases i with
  | ppsSecond lo => cases h; exact State.loopResult_scan hp
  | ppsYear lo => cases h; exact State.loopResult_scan hp
  | dataFormat lo => cases h; exact State.loopResult_scan hp
  | trigConfig lo =>
    obtain ⟨hi, he⟩ | ⟨hi, he⟩ := execTrigConfig_cases lo s
    · cases he.symm.trans h
      rw [State.loopResult_scan (by simpa using hp)]
      simp [loopKind, Instr.kind, hi]
    · cases he.symm.trans h
      rw [raiseTruncated_loopResult]
      simp [loopKind, Instr.kind, Nat.not_lt.mpr hi]
  | hit tag lo =>
    obtain ⟨c, hi, hc, he⟩ | ⟨hi, he⟩ := execHit_cases tag lo s
    · cases he.symm.trans h
      exact finishHit_loopResult hp hi hc
    · cases he.symm.trans h
      exact (loopHit_header_truncated hi _ _).symm

/-- One step of a scan and the body of R77's loop agree. -/
theorem step_loopResult {s t : State} (hp : s.phase = .scan) (hs : s.start = none) (h : step s = .next t) :
    t.loopResult = loopBody s.buf s.i s.seconds s.hits := by
  rw [step_scan hp hs] at h
  obtain ⟨hi, he⟩ | ⟨w, hi, hw, he⟩ := scanStep_cases s
  · cases he.symm.trans h
    rw [loopBody, if_pos hi]
    rfl
  · rw [exec_loopResult hp (he.symm.trans h), loopBody, if_neg (Nat.not_le.mpr hi), hw, decodeWord_kind,
      ← loopCase_eq_loopKind, tagOf_toNat]

/-! ### The run is the loop -/

/-- R77's loop goes on as the state after its body says. -/
theorem decodeLoop_succ {b : Buffer} {i seconds hits : Nat} {t : State} (n : Nat)
    (h : t.loopResult = loopBody b i seconds hits) :
    decodeLoop b (n + 1) i seconds hits =
      if t.phase = .scan then decodeLoop b n t.i t.seconds t.hits else t.outcome := by
  by_cases htp : t.phase = .scan
  · simp [decodeLoop, ← h, State.loopResult_scan htp, htp]
  · cases ho : t.outcome <;> simp [decodeLoop, ← h, State.loopResult_over htp, htp, ho]

/-- From any state in SCAN, the outcome after n steps is the one of R77's loop with fuel n. -/
theorem runSteps_outcome_eq_decodeLoop (n : Nat) {s : State} (hp : s.phase = .scan) (hs : s.start = none) :
    (runSteps n s).bind State.outcome = decodeLoop s.buf n s.i s.seconds s.hits := by
  induction n generalizing s with
  | zero => simp [runSteps, decodeLoop, State.outcome, hp]
  | succ n ih =>
    obtain ⟨t, ht, hts⟩ := step_answers hs
    rw [runSteps_succ ht, decodeLoop_succ n (step_loopResult hp hs ht)]
    split
    · next htp => rw [ih htp hts, step_scan_buf hp hs ht]
    · next htp => rw [runSteps_awaiting htp hts, Option.bind_some]

/-! ### The call is the reference function -/

theorem referenceDecode_malformed {b : Buffer} (hb : b.aligned = false) :
    referenceDecode b = some (.malformedLength b.len) := by
  rw [Buffer.aligned, beq_eq_false_iff_ne] at hb
  exact if_pos hb

theorem referenceDecode_aligned {b : Buffer} (hb : b.aligned = true) :
    referenceDecode b = decodeLoop b (b.wordCount + 1) 0 0 0 := by
  rw [Buffer.aligned, beq_iff_eq] at hb
  exact if_neg (not_not_intro hb)

/-- R77, R70: a call from any state that is not scanning shows the outcome of the reference function. -/
theorem callOutcome_eq_referenceDecode {s : State} (hp : s.phase ≠ .scan) (b : Buffer) :
    callOutcome (callSteps b) s b = referenceDecode b := by
  cases hb : b.aligned with
  | false => rw [callSteps, callOutcome_malformed hb hp, referenceDecode_malformed hb]
  | true =>
    rw [callSteps, callOutcome_aligned hb hp, referenceDecode_aligned hb]
    exact runSteps_outcome_eq_decodeLoop _ rfl rfl

/-- The reference function has an outcome for every buffer: its loop is a scan that ends (R76). -/
theorem referenceDecode_isSome (b : Buffer) : (referenceDecode b).isSome = true := by
  cases hb : b.aligned with
  | false => rw [referenceDecode_malformed hb]; rfl
  | true =>
    obtain ⟨t, ht, hover⟩ := scan_ends (n := b.wordCount + 1) (s := startValues b State.reset) rfl rfl (Nat.zero_le _)
      (Nat.lt_succ_self _)
    have hrun := runSteps_outcome_eq_decodeLoop (b.wordCount + 1) (s := startValues b State.reset) rfl rfl
    rw [ht] at hrun
    rw [referenceDecode_aligned hb]
    exact (congrArg Option.isSome hrun).symm.trans hover

/-- Settles O43: the run is the loop (`runSteps_outcome_eq_decodeLoop`), and the scan ends (`scan_ends`). -/
theorem machineComputesTheReferenceFunction : Obligations.MachineComputesTheReferenceFunction :=
  fun _ b hs => ⟨callOutcome_eq_referenceDecode hs b, referenceDecode_isSome b⟩

/-! ### The empty buffer -/

theorem runReads_succ {n : Nat} {s t : State} (h : step s = .next t) :
    runReads (n + 1) s = stepReads s ++ runReads n t := by
  simp [runReads, h]

theorem runReads_one (s : State) : runReads 1 s = stepReads s := by
  cases h : step s <;> simp [runReads, h]

/-- The call entry over a buffer of whole words begins the scan (R71). -/
theorem step_present_aligned {b : Buffer} (hb : b.aligned = true) {s : State} (hp : s.phase ≠ .scan) :
    step (s.present b) = .next (startValues b (s.present b)) := by
  rw [step_not_scan (by simpa using hp), awaitStart_some (State.present_start s b), beginCall_aligned hb]

/-- Settles O48: the reference function gives Ok(0, 0); the call entry reads nothing, being no step of a scan, nor does the
return, since no word exists. -/
theorem emptyBufferGivesZeroCounts : Obligations.EmptyBufferGivesZeroCounts := by
  intro s hs
  have hentry : stepReads (s.present (Buffer.ofBytes [])) = [] := stepReads_eq_nil fun ⟨hscan, _⟩ => hs hscan
  have hempty : ¬ 0 < (Buffer.ofBytes []).wordCount := by decide
  have hreturn : stepReads (startValues (Buffer.ofBytes []) (s.present (Buffer.ofBytes []))) = [] :=
    stepReads_eq_nil fun ⟨_, _, hi⟩ => hempty hi
  refine ⟨(callOutcome_eq_referenceDecode hs _).trans (by decide), ?_⟩
  rw [runReads_succ (step_present_aligned rfl hs), hentry, runReads_one, hreturn, List.append_nil]

end Sys2Proof.Machine

/-!
PROOF. The four marker records (spec/41_marker_records.md R85 to R88). A header word decodes to the instruction that it
encodes, so with that word under the cursor the step, and what it reads, are that instruction's (`step_header`).
-/
namespace Sys2Proof.Machine

/-! ### The header under the cursor -/

/-- The laws of the header's fields, one per instruction, as one fact. -/
theorem encodeWord_fields {i : Instr} (h : i.wellFormed = true) :
    kindOfTag (tagOf (encodeWord i)) = i.kind ∧ lo24Of (encodeWord i) = Laws.ignoredField i :=
  match i with
  | .ppsSecond lo24 => Laws.HeaderFields.ppsSecond lo24 h
  | .ppsYear lo24 => Laws.HeaderFields.ppsYear lo24 h
  | .trigConfig lo24 => Laws.HeaderFields.trigConfig lo24 h
  | .dataFormat lo24 => Laws.HeaderFields.dataFormat lo24 h
  | .hit tag lo24 => Laws.HeaderFields.hit tag lo24 h

/-- A header word selects the instruction that it encodes (R51, R53). -/
theorem decodeWord_encodeWord {i : Instr} (h : i.wellFormed = true) : decodeWord (encodeWord i) = i := by
  obtain ⟨hkind, hlo24⟩ := encodeWord_fields h
  rw [decodeWord, hkind, hlo24]
  cases i with
  | hit tag lo24 => exact congrArg (Instr.hit · lo24) (tagOf_headerWord tag lo24)
  | ppsSecond _ | ppsYear _ | trigConfig _ | dataFormat _ => rfl

/-- With a record under the cursor the step reads what its instruction reads (R37). -/
theorem stepReads_record {s : State} {w : Word} (hs : s.Scanning) (hw : s.buf.word s.i = some w) :
    stepReads s = instrReads (decodeWord w) s := by
  obtain ⟨hp, hstart, hi⟩ := hs
  simp [stepReads, hp, hstart, scanReads_record hi hw]

/-- With the header of an instruction under the cursor the step, and what it reads, are that instruction's (R73, R74). -/
theorem step_header {i : Instr} {s : State} (h : i.wellFormed = true) (hs : s.Scanning)
    (hw : s.buf.word s.i = some (encodeWord i)) : step s = exec i s ∧ stepReads s = instrReads i s := by
  rw [step_record hs hw, stepReads_record hs hw, decodeWord_encodeWord h]
  exact ⟨rfl, rfl⟩

/-! ### The records -/

/-- Settles O26: one equation per side of the bounds test; a TRIG_CONFIG reads its header only. -/
theorem trigConfigStepsOverTwoWords : Obligations.TrigConfigStepsOverTwoWords :=
  ⟨fun lo24 _ hfits => execTrigConfig_fits lo24 hfits,
    fun lo24 _ hlast => execTrigConfig_truncated lo24 hlast,
    fun lo24 _ hs hw => step_header (i := .trigConfig lo24) rfl hs hw⟩

/-- Settles O24: PPS_SECOND tests nothing, so its meaning is the update itself; it reads its header only. -/
theorem ppsSecondCountsAndAdvances : Obligations.PpsSecondCountsAndAdvances :=
  ⟨fun _ _ => rfl, fun lo24 _ hs hw => step_header (i := .ppsSecond lo24) rfl hs hw⟩

/-- Settles O25: PPS_YEAR tests nothing, so its meaning is the update itself; it reads its header only. -/
theorem ppsYearOnlyAdvances : Obligations.PpsYearOnlyAdvances :=
  ⟨fun _ _ => rfl, fun lo24 _ hs hw => step_header (i := .ppsYear lo24) rfl hs hw⟩

/-- Settles O27: DATA_FORMAT tests nothing, so its meaning is the update itself; it reads its header only, and that header
decodes to it, so to no HIT. -/
theorem dataFormatOnlyAdvances : Obligations.DataFormatOnlyAdvances :=
  ⟨fun _ _ => rfl, fun lo24 _ hs hw => step_header (i := .dataFormat lo24) rfl hs hw⟩

end Sys2Proof.Machine

/-!
PROOF. The HIT record (spec/42_hit_record.md R95 to R100). A count word that is there fixes the answer by its nibble
(`execHit_countWord`); what is left is the second bounds test, one equation per side.
-/
namespace Sys2Proof.Machine

/-! ### The count word -/

/-- Only words of the stream can be read: the converse of the bounds check (R35). -/
theorem Buffer.lt_wordCount_of_word {b : Buffer} {k : Nat} {w : Word} (h : b.word k = some w) : k < b.wordCount := by
  by_contra hk
  simp [Buffer.word_of_le (Nat.le_of_not_lt hk)] at h

/-- With the count word {n, lo28} after the header the first check passes and HIT goes on with n (R96, R98). -/
theorem execHit_countWord (tag : Tag) (lo24 : Lo24) {n : Nibble} {lo28 : Lo28} {s : State}
    (hc : s.buf.word (s.i + 1) = some (countWord n lo28)) : execHit tag lo24 s = .next (finishHit n s) := by
  rw [execHit_counted tag lo24 (Buffer.lt_wordCount_of_word hc) hc, adcCountOf_countWord]

/-! ### The payload, one equation per side of the second check -/

/-- The payload fits, an exact fit included (R99, R100). -/
theorem finishHit_fits {n : Nibble} {s : State} (h : s.i + 2 + n.toNat / 2 ≤ s.buf.wordCount) :
    finishHit n s = { s with hits := s.hits + 1, i := s.i + 2 + n.toNat / 2 } := by
  obtain ⟨-, he⟩ | ⟨hlt, -⟩ := finishHit_cases n s
  · rw [he, extraWords_eq_div, Nat.add_assoc]
    rfl
  · exact absurd h (Nat.not_le.mpr hlt)

/-- The payload would run past the end (R99): nothing is counted. -/
theorem finishHit_truncated {n : Nibble} {s : State} (h : s.buf.wordCount < s.i + 2 + n.toNat / 2) :
    finishHit n s = raiseTruncated .hit s := by
  obtain ⟨hfit, -⟩ | ⟨-, he⟩ := finishHit_cases n s
  · exact absurd h (Nat.not_lt.mpr hfit)
  · exact he

/-! ### The header -/

/-- HIT is recognised by exclusion: any tag but the four marker tags makes one (R53, R102). -/
theorem wellFormed_hit {tag : Tag} (lo24 : Lo24) (h0 : tag ≠ 0xE0) (h4 : tag ≠ 0xE4) (h5 : tag ≠ 0xE5)
    (h6 : tag ≠ 0xE6) : (Instr.hit tag lo24).wellFormed = true := by
  simpa [Instr.wellFormed, isMarkerTag, Config.tagPpsSecond, Config.tagPpsYear, Config.tagTrigConfig,
    Config.tagDataFormat] using And.intro (And.intro (And.intro h0 h4) h5) h6

theorem instrReads_hit_counted (tag : Tag) (lo24 : Lo24) {s : State} (h : s.i + 1 < s.buf.wordCount) :
    instrReads (.hit tag lo24) s = [s.i, s.i + 1] := by
  simp [instrReads, h]

theorem instrReads_hit_truncated (tag : Tag) (lo24 : Lo24) {s : State} (h : s.buf.wordCount ≤ s.i + 1) :
    instrReads (.hit tag lo24) s = [s.i] := by
  simp [instrReads, Nat.not_lt.mpr h]

/-- Settles O28: a count word leaves the second check, with an equation per side; without one the first check fails; a tag
that is no marker tag makes the header a HIT's, whose reads follow the first check. -/
theorem hitCountsAndStepsOverItsPayload : Obligations.HitCountsAndStepsOverItsPayload := by
  refine ⟨?fits, ?noCountWord, ?payloadTruncated, ?underCursor⟩
  case fits =>
    intro tag lo24 n lo28 s hc hfit
    exact (execHit_countWord tag lo24 hc).trans (congrArg _ (finishHit_fits hfit))
  case noCountWord =>
    intro tag lo24 s hlast
    exact execHit_truncated tag lo24 hlast
  case payloadTruncated =>
    intro tag lo24 n lo28 s hc hshort
    exact (execHit_countWord tag lo24 hc).trans (congrArg _ (finishHit_truncated hshort))
  case underCursor =>
    intro tag lo24 s h0 h4 h5 h6 hs hw
    obtain ⟨hstep, hreads⟩ := step_header (wellFormed_hit lo24 h0 h4 h5 h6) hs hw
    exact ⟨hstep, fun hi => hreads.trans (instrReads_hit_counted tag lo24 hi),
      fun hi => hreads.trans (instrReads_hit_truncated tag lo24 hi)⟩

end Sys2Proof.Machine

/-!
PROOF. The encoding (spec/30_encoding.md). A header word is its tag and its ignored field, and the tag map is exact, so
encoder and decoder are inverse; whole records rest on that for the header and on the count word for the payload.
-/
namespace Sys2Proof.Machine

/-! ### Headers from bytes and back -/

/-- Settles O9: the bytes are read as the header word, and a header word selects the instruction it encodes. -/
theorem decodeOfEncodeIsTheInstruction : Obligations.DecodeOfEncodeIsTheInstruction := by
  intro i rest hi
  rw [encode, decodeBytes_bytesOfWord, decodeWord_encodeWord hi]

/-! ### Whole records -/

/-- A well-formed record has a well-formed header. -/
theorem Record.instr_wellFormed {r : Record} (h : r.wellFormed = true) : r.instr.wellFormed = true :=
  (Bool.and_eq_true_iff.mp h).1

theorem Record.wellFormed_hit_iff {tag : Tag} {lo24 : Lo24} {n : Nibble} {lo28 : Lo28} {payload : List Word} :
    (Record.hit tag lo24 n lo28 payload).wellFormed = true ↔
      (Instr.hit tag lo24).wellFormed = true ∧ payload.length = extraWords n := by
  simp [Record.wellFormed, Record.instr]

/-- The staged reader takes the nibble from the count word and as many payload words as it asks for (R59, R61). -/
theorem readHitTail_countWord (tag : Tag) (lo24 : Lo24) {n : Nibble} (lo28 : Lo28) {payload : List Word}
    (h : payload.length = extraWords n) (rest : List Word) :
    readHitTail tag lo24 (countWord n lo28 :: (payload ++ rest)) = some (.hit tag lo24 n lo28 payload, rest) := by
  simp [readHitTail, ← h]

/-- The words after the header complete the record that the header begins. -/
theorem readTail_tailWords {r : Record} (h : r.wellFormed = true) (rest : List Word) :
    readTail r.instr (r.tailWords ++ rest) = some (r, rest) := by
  cases r with
  | ppsSecond lo24 | ppsYear lo24 | trigConfig lo24 cfg | dataFormat lo24 => rfl
  | hit tag lo24 n lo28 payload => exact readHitTail_countWord tag lo24 lo28 (Record.wellFormed_hit_iff.mp h).2 rest

/-- Settles O15: the header gives the instruction back, and the words after it complete the record. -/
theorem recordIsReadBackFromItsWords : Obligations.RecordIsReadBackFromItsWords := by
  intro r rest h
  rw [Record.words, List.cons_append, readRecord, decodeWord_encodeWord (Record.instr_wellFormed h)]
  exact readTail_tailWords h rest

/-- What the reader completes is a well-formed record with that header, made of exactly the words taken. -/
theorem readTail_some {i : Instr} {ws rest : List Word} {r : Record} (hi : i.wellFormed = true)
    (h : readTail i ws = some (r, rest)) : r.instr = i ∧ r.wellFormed = true ∧ r.tailWords ++ rest = ws := by
  cases i with
  | ppsSecond lo24 | ppsYear lo24 | dataFormat lo24 => cases h; exact ⟨rfl, rfl, rfl⟩
  | trigConfig lo24 =>
    cases ws with
    | nil => cases h
    | cons cfg ws => cases h; exact ⟨rfl, rfl, rfl⟩
  | hit tag lo24 =>
    cases ws with
    | nil => cases h
    | cons c ws =>
      simp only [readTail, readHitTail] at h
      split at h
      · next hlen =>
        cases h
        exact ⟨rfl, Record.wellFormed_hit_iff.mpr ⟨hi, List.length_take_of_le hlen⟩, by simp [Record.tailWords]⟩
      · cases h

/-! ### The tag map -/

/-- Settles O11: R53's chain of tests, one row per branch; the four literals are distinct. -/
theorem tagMapIsTotalAndExact : Obligations.TagMapIsTotalAndExact := by
  intro t
  simp only [kindOfTag, Config.tagPpsSecond, Config.tagPpsYear, Config.tagTrigConfig, Config.tagDataFormat]
  by_cases h0 : t = 0xE0#8
  · simp [h0]
  by_cases h5 : t = 0xE5#8
  · simp [h5]
  by_cases h4 : t = 0xE4#8
  · simp [h4]
  by_cases h6 : t = 0xE6#8
  · simp [h6]
  simp [h0, h4, h5, h6]

/-- The decoder makes well-formed instructions only: a marker tag never becomes a HIT (R54). -/
theorem decodeWord_wellFormed (w : Word) : (decodeWord w).wellFormed = true := by
  unfold decodeWord
  cases h : kindOfTag (tagOf w) with
  | ppsSecond | ppsYear | trigConfig | dataFormat => rfl
  | hit => simp [Instr.wellFormed, (kindOfTag_hit_iff _).mp h]

/-- Every word is the header of what it decodes to: the kind fixes a marker's tag, and a HIT carries its own. -/
theorem encodeWord_decodeWord (w : Word) : encodeWord (decodeWord w) = w := by
  obtain ⟨h0, h4, h5, h6, -⟩ := tagMapIsTotalAndExact (tagOf w)
  suffices h : encodeWord (decodeWord w) = headerWord (tagOf w) (lo24Of w) from h.trans (headerWord_fields w)
  unfold decodeWord
  cases h : kindOfTag (tagOf w) with
  | ppsSecond => rw [h0.mp h]; rfl
  | ppsYear => rw [h4.mp h]; rfl
  | trigConfig => rw [h5.mp h]; rfl
  | dataFormat => rw [h6.mp h]; rfl
  | hit => rfl

/-- Settles O10. -/
theorem encodeOfDecodeIsTheWord : Obligations.EncodeOfDecodeIsTheWord :=
  fun w => ⟨encodeWord_decodeWord w, decodeWord_wellFormed w⟩

/-- Settles O16: the header is the word decoded (`encodeWord_decodeWord`), the rest is `readTail_some`. -/
theorem recordReadIsTheWordsRead : Obligations.RecordReadIsTheWordsRead := by
  intro ws rest r h
  cases ws with
  | nil => cases h
  | cons w ws =>
    obtain ⟨hinstr, hwf, htail⟩ := readTail_some (decodeWord_wellFormed w) h
    exact ⟨hwf, by rw [Record.words, hinstr, encodeWord_decodeWord, List.cons_append, htail]⟩

/-! ### The opcode table -/

/-- A row's test as a test on the tag: its mask and pattern have no low bits. -/
def coversTag (r : TableRow) (t : Tag) : Bool :=
  t &&& tagOf r.mask == tagOf r.pattern

theorem tableRows_low_bits :
    ∀ r ∈ tableRows, r.mask = headerWord (tagOf r.mask) 0 ∧ r.pattern = headerWord (tagOf r.pattern) 0 := by
  decide

theorem headerWord_and_zero (t m : Tag) (l : Lo24) : headerWord t l &&& headerWord m 0 = headerWord (t &&& m) 0 :=
  (BitVec.and_append (x₁ := t) (x₂ := m)).trans (congrArg (headerWord (t &&& m)) BitVec.and_zero)

theorem headerWord_zero_inj {t t' : Tag} : headerWord t 0 = headerWord t' 0 ↔ t = t' :=
  ⟨fun h => by simpa using congrArg tagOf h, fun h => h ▸ rfl⟩

/-- Whether a row covers a word is decided by the word's tag (R65). -/
theorem covers_eq_coversTag {r : TableRow} (hr : r ∈ tableRows) (w : Word) : r.covers w = coversTag r (tagOf w) := by
  obtain ⟨hmask, hpattern⟩ := tableRows_low_bits r hr
  have hand : w &&& r.mask = headerWord (tagOf w &&& tagOf r.mask) 0 := by
    conv_lhs => rw [← headerWord_fields w, hmask]
    exact headerWord_and_zero _ _ _
  rw [TableRow.covers, coversTag, hand, Bool.eq_iff_iff, beq_iff_eq, beq_iff_eq, hpattern, headerWord_zero_inj]
  simp

/-- R65 on the 256 tags: one row covers each, the row of its kind. -/
theorem coversTag_tiles : ∀ t : Tag, (tableRows.filter (coversTag · t)).map TableRow.kind = [kindOfTag t] := by
  decide

/-- Settles O12: the rows that cover a word are those that cover its tag, and on tags the table is finite. -/
theorem tableRowsTileTheHeaderWords : Obligations.TableRowsTileTheHeaderWords := by
  intro w
  rw [decodeWord_kind, List.filter_congr fun r hr => covers_eq_coversTag hr w]
  exact List.map_eq_singleton_iff.mp (coversTag_tiles (tagOf w))

/-! ### Fields and bytes -/

/-- Settles O17: halving the four bits 31 to 28 leaves the three bits 31 to 29. -/
theorem payloadLengthIsTopThreeBits : Obligations.PayloadLengthIsTopThreeBits := by
  intro c
  have hlt : c.toNat < 2 ^ 32 := c.isLt
  rw [extraWords_eq_div, adcCountOf_toNat, BitVec.extractLsb'_toNat, Nat.shiftRight_eq_div_pow, Nat.shiftRight_eq_div_pow]
  omega

/-- Settles O13: the decoder evaluated on each header. -/
theorem writtenOutHeadersDecode : Obligations.WrittenOutHeadersDecode :=
  ⟨rfl, rfl, rfl, rfl, rfl, rfl⟩

/-- Settles O14: one case per length; with a fourth byte the length is no longer below 4. -/
theorem partialWordIsRejected : Obligations.PartialWordIsRejected := by
  intro bytes h
  match bytes, h with
  | [], _ => rfl
  | [_], _ => rfl
  | [_, _], _ => rfl
  | [_, _, _], _ => rfl
  | _ :: _ :: _ :: _ :: _, h => simp at h; omega

end Sys2Proof.Machine

/-!
PROOF. The invariant (spec/10_state.md R15, R16, R24, R25). Each phase's promise is read off by its phase; a consumed record
keeps the counts because each counter's step is paid for by the words the cursor passes, and a truncated one changes nothing
but the phase and the error.
-/
namespace Sys2Proof.Machine

/-! ### The promise of each phase -/

theorem State.phaseOk_scan {s : State} (hp : s.phase = .scan) : s.PhaseOk ↔ s.ScanOk := by simp [State.PhaseOk, hp]

theorem State.phaseOk_done {s : State} (hp : s.phase = .done) : s.PhaseOk ↔ s.DoneOk := by simp [State.PhaseOk, hp]

theorem State.phaseOk_fault {s : State} (hp : s.phase = .fault) : s.PhaseOk ↔ s.FaultOk := by simp [State.PhaseOk, hp]

theorem State.Inv.scanOk {s : State} (h : s.Inv) (hp : s.phase = .scan) : s.ScanOk := by
  obtain ⟨-, -, hphase⟩ := h
  exact (State.phaseOk_scan hp).mp hphase

/-- In SCAN and DONE the counters and the cursor are in range (R24). -/
theorem State.Inv.countsFit {s : State} (h : s.Inv) (hp : s.phase = .scan ∨ s.phase = .done) : s.CountsFit := by
  obtain ⟨-, -, hphase⟩ := h
  obtain hp | hp := hp
  · obtain ⟨-, -, hfit⟩ := (State.phaseOk_scan hp).mp hphase
    exact hfit
  · obtain ⟨⟨-, -, hfit⟩, -⟩ := (State.phaseOk_done hp).mp hphase
    exact hfit

/-! ### What keeps the invariant -/

/-- The call entry establishes it, whatever the state was (R22, R71). -/
theorem beginCall_inv {b : Buffer} (hb : b.wf = true) (s : State) : (beginCall b s).Inv := by
  cases ha : b.aligned with
  | true =>
    rw [beginCall_aligned ha]
    exact ⟨hb, by simp, (State.phaseOk_scan rfl).mpr ⟨ha, rfl, Nat.le_refl 0, Nat.zero_le _⟩⟩
  | false =>
    rw [beginCall_malformed ha]
    exact ⟨hb, by simp, (State.phaseOk_fault rfl).mpr ⟨rfl, ha⟩⟩

/-- The return at the end of the scan keeps it (R72). -/
theorem returnOk_inv {s : State} (h : s.Inv) (hp : s.phase = .scan) (hi : s.buf.wordCount ≤ s.i) : (returnOk s).Inv := by
  obtain ⟨-, hle⟩ := h.countsFit (.inl hp)
  have hscan : s.ScanOk := h.scanOk hp
  obtain ⟨hwf, hstartWf, -⟩ := h
  exact ⟨hwf, hstartWf, (State.phaseOk_done rfl).mpr ⟨hscan, Nat.le_antisymm hle hi⟩⟩

/-- A truncated record keeps it: the error holds a kind that can be truncated and the index of an existing header (R107). -/
theorem raiseTruncated_inv {s : State} {k : Kind} (h : s.Inv) (hp : s.phase = .scan) (hk : k = .trigConfig ∨ k = .hit)
    (hi : s.i < s.buf.wordCount) : (raiseTruncated k s).Inv := by
  obtain ⟨haligned, -, hfit⟩ := h.scanOk hp
  obtain ⟨hwf, hstartWf, -⟩ := h
  exact ⟨hwf, hstartWf, (State.phaseOk_fault rfl).mpr ⟨haligned, hk, rfl, hi, hfit⟩⟩

/-- A state still in SCAN that differs from one that meets the invariant in cursor and counters only. -/
theorem State.Inv.of_countsFit {s t : State} (h : s.Inv) (hp : s.phase = .scan) (hphase : t.phase = s.phase)
    (herr : t.err = s.err) (hbuf : t.buf = s.buf) (hstart : t.start = s.start) (hfit : t.CountsFit) : t.Inv := by
  obtain ⟨haligned, hnone, -⟩ := h.scanOk hp
  obtain ⟨hwf, hstartWf, -⟩ := h
  exact ⟨by rwa [hbuf], by rwa [hstart],
    (State.phaseOk_scan (hphase.trans hp)).mpr ⟨by rwa [hbuf], herr.trans hnone, hfit⟩⟩

/-- An instruction keeps it: seconds grows by 1 over one word, hits by 1 over two words or more (R24, R85, R100). -/
theorem exec_inv {i : Instr} {s t : State} (hinv : s.Inv) (hp : s.phase = .scan) (hi : s.i < s.buf.wordCount)
    (h : exec i s = .next t) : t.Inv := by
  obtain ⟨hcount, -⟩ := hinv.countsFit (.inl hp)
  obtain ⟨-, rfl⟩ | ⟨-, rfl⟩ | ⟨-, hi', rfl⟩ | ⟨c, -, -, hfit, rfl⟩ | ⟨hk, rfl⟩ := exec_cases h
  · refine hinv.of_countsFit hp rfl rfl rfl rfl ⟨?_, hi⟩
    simp only [advance_seconds, advance_hits, advance_i, countSecond_seconds, countSecond_hits, countSecond_i]
    omega
  · exact hinv.of_countsFit hp rfl rfl rfl rfl ⟨Nat.le_succ_of_le hcount, hi⟩
  · exact hinv.of_countsFit hp rfl rfl rfl rfl ⟨Nat.le_add_right_of_le hcount, hi'⟩
  · refine hinv.of_countsFit hp rfl rfl rfl rfl ⟨?_, ?_⟩ <;>
      simp only [advance_seconds, advance_hits, advance_i, advance_buf, countHit_seconds, countHit_hits, countHit_i,
        countHit_buf] <;> omega
  · exact raiseTruncated_inv hinv hp hk hi

/-- Settles O38: nothing happens, a call begins, the scan returns, or a record runs (`step_cases`); each keeps it. -/
theorem everyStepKeepsTheInvariant : Obligations.EveryStepKeepsTheInvariant := by
  intro s t hinv h
  obtain ⟨-, -, rfl⟩ | ⟨b, -, hs, rfl⟩ | ⟨hp, -, hi, rfl⟩ | ⟨w, hp, -, hi, -, he⟩ := step_cases h
  · exact hinv
  · obtain ⟨-, hstartWf, -⟩ := hinv
    exact beginCall_inv (hstartWf b hs) s
  · exact returnOk_inv hinv hp hi
  · exact exec_inv hinv hp hi he

/-- Settles O39: the empty buffer is canonical, and in IDLE there is no error. -/
theorem resetMeetsTheInvariant : Obligations.ResetMeetsTheInvariant :=
  ⟨rfl, by simp [State.reset], rfl⟩

/-- Settles O40: a buffer made of bytes is canonical (`Buffer.ofBytes_wf`), and lending it touches the input port only. -/
theorem lendingABufferKeepsTheInvariant : Obligations.LendingABufferKeepsTheInvariant := by
  rintro s bytes ⟨hwf, -, hphase⟩
  exact ⟨hwf, by simp [Buffer.ofBytes_wf], hphase⟩

/-- Settles O41: seconds + 2 * hits <= i <= word_count bounds the counters, and a valid build's widths hold word_count. -/
theorem countersNeverOverflow : Obligations.CountersNeverOverflow := by
  intro s hinv hp
  obtain ⟨hcount, hi⟩ := hinv.countsFit hp
  refine ⟨by omega, by omega, fun p hvalid hlen => ?_⟩
  have hwc : s.buf.wordCount + 7 < 2 ^ p.idxW := Build.wordCount_lt hvalid hlen
  exact ⟨Build.len_lt hvalid hlen, by omega, Build.counter_lt hvalid (by omega), Build.counter_lt hvalid (by omega)⟩

end Sys2Proof.Machine

/-!
PROOF. The buffer's canonical form and the host's placement (spec/20_memory.md section 1; log 1, log 12).
-/
namespace Sys2Proof.Machine

/-! ### Equal bytes are equal cells -/

theorem cellsWf_cons_iff {len lo a : Nat} {v : Byte} {rest : List Host.Cell} :
    cellsWf len lo ((a, v) :: rest) = true ↔
      lo ≤ a ∧ a < len ∧ v ≠ Config.unlistedByte ∧ cellsWf len (a + 1) rest = true := by
  simp [cellsWf, and_assoc]

@[simp] theorem cellByte_cons_same (a : Nat) (v : Byte) (rest : List Host.Cell) : cellByte ((a, v) :: rest) a = v := by
  simp [cellByte]

theorem cellByte_cons_ne {a x : Nat} (v : Byte) (rest : List Host.Cell) (h : x ≠ a) :
    cellByte ((a, v) :: rest) x = cellByte rest x := by
  simp [cellByte, h.symm]

/-- The first cell of a canonical list stands at the lowest offset that does not read as unlisted. -/
theorem head_le_of_cellByte_ne {len lo a x : Nat} {v : Byte} {rest : List Host.Cell}
    (h : cellsWf len lo ((a, v) :: rest) = true) (hx : cellByte ((a, v) :: rest) x ≠ Config.unlistedByte) : a ≤ x := by
  by_contra hlt
  obtain ⟨-, hrest⟩ := cellsWf_cons_iff.mp h
  exact hx (cellByte_below (cellsWf_cons_iff.mpr ⟨Nat.le_refl a, hrest⟩) (Nat.lt_of_not_le hlt))

/-- Two canonical lists with the same first cell and equal bytes have equal bytes after it. -/
theorem cellByte_rest_eq {len a x : Nat} {v : Byte} {rest rest' : List Host.Cell} (h : cellsWf len (a + 1) rest = true)
    (h' : cellsWf len (a + 1) rest' = true) (hx : cellByte ((a, v) :: rest) x = cellByte ((a, v) :: rest') x) :
    cellByte rest x = cellByte rest' x := by
  by_cases heq : x = a
  · rw [cellByte_below h (by omega), cellByte_below h' (by omega)]
  · rwa [cellByte_cons_ne v rest heq, cellByte_cons_ne v rest' heq] at hx

/-- A canonical list is determined by its bytes: its first cell is, and then the rest. -/
theorem cells_eq_of_cellByte_eq {len lo : Nat} {cells cells' : List Host.Cell} (h : cellsWf len lo cells = true)
    (h' : cellsWf len lo cells' = true) (heq : ∀ x < len, cellByte cells x = cellByte cells' x) : cells = cells' := by
  induction cells generalizing lo cells' with
  | nil =>
    cases cells' with
    | nil => rfl
    | cons c' rest' =>
      obtain ⟨a', v'⟩ := c'
      obtain ⟨-, ha', hv', -⟩ := cellsWf_cons_iff.mp h'
      exact absurd (by simpa [cellByte] using (heq a' ha').symm) hv'
  | cons c rest ih =>
    obtain ⟨a, v⟩ := c
    obtain ⟨-, ha, hv, hrest⟩ := cellsWf_cons_iff.mp h
    cases cells' with
    | nil => exact absurd (by simpa [cellByte] using heq a ha) hv
    | cons c' rest' =>
      obtain ⟨a', v'⟩ := c'
      obtain ⟨-, ha', hv', hrest'⟩ := cellsWf_cons_iff.mp h'
      have hle : a' ≤ a := head_le_of_cellByte_ne h' (by rw [← heq a ha]; simpa using hv)
      have hge : a ≤ a' := head_le_of_cellByte_ne h (by rw [heq a' ha']; simpa using hv')
      obtain rfl := Nat.le_antisymm hle hge
      obtain rfl : v = v' := by simpa using heq a' ha
      rw [ih hrest hrest' fun x hx => cellByte_rest_eq hrest hrest' (heq x hx)]

/-- Settles O19: bytes below the length are the cells' bytes, and these determine a canonical list. -/
theorem canonicalBuffersWithEqualBytesAreEqual : Obligations.CanonicalBuffersWithEqualBytesAreEqual := by
  intro ⟨len, cells⟩ ⟨len', cells'⟩ h h' hlen hbytes
  obtain rfl : len = len' := hlen
  have heq : ∀ x < len, cellByte cells x = cellByte cells' x := by
    intro x hx
    simpa [Buffer.byte, hx] using hbytes x
  exact congrArg (Buffer.mk len) (cells_eq_of_cellByte_eq h h' heq)

/-! ### A word read from its bytes -/

/-- Four bytes that exist are a word (R31, R32). -/
theorem Buffer.word_of_bytes {b : Buffer} {k : Nat} {b0 b1 b2 b3 : Byte} (h0 : b.byte (4 * k) = some b0)
    (h1 : b.byte (4 * k + 1) = some b1) (h2 : b.byte (4 * k + 2) = some b2) (h3 : b.byte (4 * k + 3) = some b3) :
    b.word k = some (wordOfBytes b0 b1 b2 b3) := by
  simp [Buffer.word, Buffer.memRead, wordOffset, Config.wordBytes, h0, h1, h2, h3]

/-- Settles O7: the four bytes are the word under the cursor, and the step is its decoded instruction's. -/
theorem stepRunsTheDecodedInstruction : Obligations.StepRunsTheDecodedInstruction := by
  intro s b0 b1 b2 b3 i hs h0 h1 h2 h3 hdec
  cases hdec
  exact step_record hs (Buffer.word_of_bytes h0 h1 h2 h3)

/-! ### The placed instruction -/

/-- The first four of the bytes placed at a word's offset are that word. -/
theorem Buffer.word_place {b : Buffer} (h : b.wf = true) (k : Nat) (b0 b1 b2 b3 : Byte) (rest : List Byte) :
    (b.place (wordOffset k) (b0 :: b1 :: b2 :: b3 :: rest)).word k = some (wordOfBytes b0 b1 b2 b3) := by
  have hbyte := fun j => Buffer.byte_place (b := b) (a := wordOffset k) (j := j) (bytes := b0 :: b1 :: b2 :: b3 :: rest) h
  exact Buffer.word_of_bytes (hbyte 0 (by simp)) (hbyte 1 (by simp)) (hbyte 2 (by simp)) (hbyte 3 (by simp))

/-- Settles O8: the word read at the cursor is the one placed, so it exists and is the one decoded. -/
theorem placedInstructionIsTheOneThatRuns : Obligations.PlacedInstructionIsTheOneThatRuns := by
  intro s nbits w i hwf hdec
  obtain ⟨b0, b1, b2, b3, rest, hbytes⟩ := tableBytes_cons nbits w
  have hword : (s.withFetchWord nbits w).buf.word s.i = some (wordOfBytes b0 b1 b2 b3) := by
    rw [State.withFetchWord, placeProgram, hbytes]
    exact Buffer.word_place hwf s.i b0 b1 b2 b3 rest
  have hs : (s.withFetchWord nbits w).Scanning := ⟨rfl, rfl, Buffer.lt_wordCount_of_word hword⟩
  rw [decodeTableWord, hbytes] at hdec
  cases hdec
  exact ⟨step_record hs hword, hs⟩

end Sys2Proof.Machine

/-!
PROOF. What a step leaves unchanged and where it fails (spec/41_marker_records.md, spec/42_hit_record.md,
spec/60_exceptions.md). A step in SCAN is the return or the decoded instruction (`step_scan_cases`), and an instruction's
effect is one of five (`exec_cases`).
-/
namespace Sys2Proof.Machine

/-! ### A step in SCAN -/

/-- `step_cases` in SCAN: no start was pending, and the scan returns or the record under the cursor runs. -/
theorem step_scan_cases {s t : State} (hp : s.phase = .scan) (h : step s = .next t) :
    s.start = none ∧ (t = returnOk s ∨
      ∃ w, s.i < s.buf.wordCount ∧ s.buf.word s.i = some w ∧ exec (decodeWord w) s = .next t) := by
  obtain ⟨hne, -⟩ | ⟨_, hne, -⟩ | ⟨-, hs, -, rfl⟩ | ⟨w, -, hs, hi, hw, he⟩ := step_cases h
  · exact absurd hp hne
  · exact absurd hp hne
  · exact ⟨hs, .inl rfl⟩
  · exact ⟨hs, .inr ⟨w, hi, hw, he⟩⟩

/-! ### Frames -/

/-- An instruction draws no free value. -/
theorem exec_draws {i : Instr} {s t : State} (h : exec i s = .next t) : t.draws = s.draws := by
  obtain ⟨-, rfl⟩ | ⟨-, rfl⟩ | ⟨-, -, rfl⟩ | ⟨_, -, -, -, rfl⟩ | ⟨-, rfl⟩ := exec_cases h <;> rfl

theorem exec_byte {i : Instr} {s t : State} (h : exec i s = .next t) (a : Nat) : t.buf.byte a = s.buf.byte a := by
  rw [exec_buf h]

/-- Settles O23: the return leaves the buffer and the input port alone, and so does every instruction. -/
theorem scanNeverWritesTheBuffer : Obligations.ScanNeverWritesTheBuffer := by
  intro s t hp h
  obtain ⟨-, rfl | ⟨w, -, -, he⟩⟩ := step_scan_cases hp h
  · exact ⟨rfl, fun _ => rfl, rfl, rfl⟩
  · exact ⟨exec_buf he, exec_byte he, exec_start he, exec_draws he⟩

/-- Settles O29: the case of a HIT is shut out; of the others only PPS_SECOND counts, and only TRIG_CONFIG can fail. -/
theorem markersChangeNothingElse : Obligations.MarkersChangeNothingElse := by
  intro i s t hk h
  suffices hrest : t.hits = s.hits ∧ (i.kind ≠ .ppsSecond → t.seconds = s.seconds) ∧
      (t.phase = s.phase ∧ t.err = s.err ∨
        i.kind = .trigConfig ∧ t.phase = .fault ∧ t.err = some (.truncatedFrame .trigConfig s.i) ∧ t.i = s.i) by
    obtain ⟨hhits, hseconds, hphase⟩ := hrest
    exact ⟨hhits, hseconds, exec_buf h, exec_byte h, exec_start h, exec_draws h, hphase⟩
  obtain ⟨hpps, rfl⟩ | ⟨-, rfl⟩ | ⟨-, -, rfl⟩ | ⟨_, hhit, -⟩ | ⟨htrig | hhit, rfl⟩ := exec_cases h
  · exact ⟨rfl, fun hne => absurd hpps hne, .inl ⟨rfl, rfl⟩⟩
  · exact ⟨rfl, fun _ => rfl, .inl ⟨rfl, rfl⟩⟩
  · exact ⟨rfl, fun _ => rfl, .inl ⟨rfl, rfl⟩⟩
  · exact absurd hhit hk
  · exact ⟨rfl, fun _ => rfl, .inr ⟨htrig, rfl, by rw [htrig, raiseTruncated_err], rfl⟩⟩
  · exact absurd hhit hk

/-- Settles O30: a HIT is counted or truncated; the other cases are of other kinds. -/
theorem hitChangesNothingElse : Obligations.HitChangesNothingElse := by
  intro i s t hk h
  suffices hrest : t.seconds = s.seconds ∧
      (t.phase = s.phase ∧ t.err = s.err ∨
        t.phase = .fault ∧ t.err = some (.truncatedFrame .hit s.i) ∧ t.hits = s.hits ∧ t.i = s.i) by
    obtain ⟨hseconds, hphase⟩ := hrest
    exact ⟨hseconds, exec_buf h, exec_byte h, exec_start h, exec_draws h, hphase⟩
  obtain ⟨hpps, -⟩ | ⟨-, rfl⟩ | ⟨-, -, rfl⟩ | ⟨_, -, -, -, rfl⟩ | ⟨-, rfl⟩ := exec_cases h
  · simp [hk] at hpps
  · exact ⟨rfl, .inl ⟨rfl, rfl⟩⟩
  · exact ⟨rfl, .inl ⟨rfl, rfl⟩⟩
  · exact ⟨rfl, .inl ⟨rfl, rfl⟩⟩
  · exact ⟨rfl, .inr ⟨rfl, by rw [hk, raiseTruncated_err], rfl, rfl⟩⟩

/-! ### The counters -/

/-- Only PPS_SECOND changes seconds, by 1 (R11). -/
theorem exec_seconds {i : Instr} {s t : State} (h : exec i s = .next t) (hne : t.seconds ≠ s.seconds) :
    t.seconds = s.seconds + 1 ∧ i.kind = .ppsSecond := by
  obtain ⟨hk, rfl⟩ | ⟨-, rfl⟩ | ⟨-, -, rfl⟩ | ⟨_, -, -, -, rfl⟩ | ⟨-, rfl⟩ := exec_cases h
  · exact ⟨rfl, hk⟩
  all_goals exact absurd rfl hne

/-- Only HIT changes hits, by 1 (R12). -/
theorem exec_hits {i : Instr} {s t : State} (h : exec i s = .next t) (hne : t.hits ≠ s.hits) :
    t.hits = s.hits + 1 ∧ i.kind = .hit := by
  obtain ⟨-, rfl⟩ | ⟨-, rfl⟩ | ⟨-, -, rfl⟩ | ⟨_, hk, -, -, rfl⟩ | ⟨-, rfl⟩ := exec_cases h
  case inr.inr.inr.inl => exact ⟨rfl, hk⟩
  all_goals exact absurd rfl hne

/-- Settles O32: the return changes no counter; an instruction does by its kind, which is its header's tag (R53). -/
theorem onlyItsRecordMovesACounter : Obligations.OnlyItsRecordMovesACounter := by
  intro s t hp h
  obtain ⟨-, rfl | ⟨w, -, hw, he⟩⟩ := step_scan_cases hp h
  · exact ⟨fun hne => absurd rfl hne, fun hne => absurd rfl hne⟩
  · obtain ⟨hpps, -, -, -, hhit⟩ := tagMapIsTotalAndExact (tagOf w)
    refine ⟨fun hne => ?_, fun hne => ?_⟩
    · obtain ⟨hcount, hk⟩ := exec_seconds he hne
      rw [decodeWord_kind] at hk
      exact ⟨hcount, w, hw, hpps.mp hk⟩
    · obtain ⟨hcount, hk⟩ := exec_hits he hne
      rw [decodeWord_kind] at hk
      exact ⟨hcount, w, hw, hhit.mp hk⟩

/-! ### Truncation -/

/-- An instruction run in SCAN that ends in FAULT is a truncated TRIG_CONFIG or HIT and does nothing else (R107, R110). -/
theorem exec_fault {i : Instr} {s t : State} (hp : s.phase = .scan) (h : exec i s = .next t) (ht : t.phase = .fault) :
    (i.kind = .trigConfig ∨ i.kind = .hit) ∧ t = raiseTruncated i.kind s := by
  obtain ⟨-, rfl⟩ | ⟨-, rfl⟩ | ⟨-, -, rfl⟩ | ⟨_, -, -, -, rfl⟩ | hfault := exec_cases h
  case inr.inr.inr.inr => exact hfault
  all_goals simp [hp] at ht

/-- The three sites of R107, for an instruction of this kind at the cursor. -/
def truncationSite (k : Kind) (s : State) : Prop :=
  (k = .trigConfig ∧ s.buf.wordCount ≤ s.i + 1) ∨
  (k = .hit ∧ s.buf.wordCount ≤ s.i + 1) ∨
  (k = .hit ∧ s.i + 1 < s.buf.wordCount ∧
    ∃ c, s.buf.word (s.i + 1) = some c ∧ s.buf.wordCount < s.i + 2 + (adcCountOf c).toNat / 2)

/-- An instruction run in SCAN ends in FAULT exactly at the sites T1, T2 and T3. -/
theorem exec_fault_iff {i : Instr} {s t : State} (hp : s.phase = .scan) (h : exec i s = .next t) :
    t.phase = .fault ↔ truncationSite i.kind s := by
  cases i with
  | ppsSecond lo | ppsYear lo | dataFormat lo => cases h; simp [hp, truncationSite, Instr.kind]
  | trigConfig lo =>
    obtain ⟨hi, he⟩ | ⟨hi, he⟩ := execTrigConfig_cases lo s <;> cases he.symm.trans h
    · simp [hp, truncationSite, Instr.kind, hi]
    · simp [truncationSite, Instr.kind, hi]
  | hit tag lo =>
    obtain ⟨c, hi, hc, he⟩ | ⟨hi, he⟩ := execHit_cases tag lo s <;> cases he.symm.trans h
    · have hsite : truncationSite (Instr.hit tag lo).kind s ↔ s.buf.wordCount < s.i + 2 + extraWords (adcCountOf c) := by
        simp [truncationSite, Instr.kind, hi, hc, extraWords_eq_div]
      rw [hsite]
      obtain ⟨hfit, ht⟩ | ⟨hshort, ht⟩ := finishHit_cases (adcCountOf c) s
      · simp [ht, hp, hfit]
      · simpa [ht] using hshort
    · simp [truncationSite, Instr.kind, hi]

/-- Settles O33: the step is the decoded instruction's, whose kind is the tag's; its failures are the three sites. -/
theorem truncationHasExactlyThreeSites : Obligations.TruncationHasExactlyThreeSites := by
  intro s w hs hw
  have ⟨hp, _, hi⟩ := hs
  rw [step_record hs hw, ← decodeWord_kind]
  constructor
  · obtain ⟨t, ht⟩ := exec_answers (decodeWord w) s
    refine Iff.trans ?_ (exec_fault_iff hp ht)
    simp [ht]
  · intro t ht hfault
    obtain ⟨-, rfl⟩ := exec_fault hp ht hfault
    exact ⟨rfl, by omega⟩

/-- Settles O34: the step ended as `exec_fault` says, and its reads are those of `mem_stepReads`. -/
theorem truncationIsPrecise : Obligations.TruncationIsPrecise := by
  intro s t hp h hfault
  obtain ⟨-, rfl | ⟨w, -, hw, he⟩⟩ := step_scan_cases hp h
  · cases hfault
  · obtain ⟨hk, rfl⟩ := exec_fault hp he hfault
    refine ⟨_, hk, rfl, rfl, rfl, rfl, fun r hr => ?_⟩
    obtain ⟨-, w', hw', hr⟩ := mem_stepReads hr
    cases hw.symm.trans hw'
    exact (mem_instrReads hr).imp_right fun ⟨hhit, _, heq⟩ => ⟨hhit, heq⟩

end Sys2Proof.Machine

/-!
PROOF. The call around the scan, and the ports (spec/10_state.md section 7, spec/40_scan_control.md section 2).
-/
namespace Sys2Proof.Machine

/-! ### Outside a scan -/

/-- Out of SCAN and with no start pending nothing is read, however many steps are made. -/
theorem runReads_awaiting {s : State} (hp : s.phase ≠ .scan) (hs : s.start = none) (n : Nat) : runReads n s = [] := by
  have hstep : step s = .next s := by rw [step_not_scan hp, awaitStart_none hs]
  have hreads : stepReads s = [] := stepReads_eq_nil fun ⟨hscan, _⟩ => hp hscan
  induction n with
  | zero => rfl
  | succ n ih => rw [runReads_succ hstep, hreads, ih, List.append_nil]

/-- Settles O4. -/
theorem nothingHappensBetweenCalls : Obligations.NothingHappensBetweenCalls := by
  intro s hp hs
  rw [step_not_scan hp, awaitStart_none hs]

/-- Settles O5. -/
theorem startDuringScanIsRefused : Obligations.StartDuringScanIsRefused := by
  intro s b hp hs
  simp [step, hp, hs]

theorem Buffer.aligned_iff (b : Buffer) : b.aligned = true ↔ b.len % 4 = 0 := by
  simp [Buffer.aligned, Config.wordBytes]

theorem Buffer.aligned_eq_false_iff (b : Buffer) : b.aligned = false ↔ b.len % 4 ≠ 0 := by
  simp [Buffer.aligned, Config.wordBytes]

/-- Settles O2: the two branches of the call entry, which is no step of a scan and so reads nothing. -/
theorem callEntryChecksLengthThenClears : Obligations.CallEntryChecksLengthThenClears := by
  intro s b hp hs
  have hstep : step s = .next (beginCall b s) := by rw [step_not_scan hp, awaitStart_some hs]
  have hreads : stepReads s = [] := stepReads_eq_nil fun ⟨hscan, _⟩ => hp hscan
  refine ⟨fun hlen => ?_, fun hlen => ?_⟩
  · rw [beginCall_malformed (b.aligned_eq_false_iff.mpr hlen)] at hstep
    exact ⟨_, hstep, rfl, rfl, rfl, rfl, hreads⟩
  · rw [beginCall_aligned (b.aligned_iff.mpr hlen)] at hstep
    exact ⟨hstep, hreads, rfl⟩

/-- Settles O35: the call ends at its entry (`callOutcome_malformed`); neither the entry nor what follows it reads. -/
theorem unalignedLengthIsMalformed : Obligations.UnalignedLengthIsMalformed := by
  intro bytes n hlen
  have hb : (Buffer.ofBytes bytes).aligned = false := (Buffer.aligned_eq_false_iff _).mpr hlen
  refine ⟨callOutcome_malformed hb (by decide) _, ?_⟩
  cases n with
  | zero => rfl
  | succ n =>
    have hstep : step (State.reset.present (Buffer.ofBytes bytes)) =
        .next (beginCall (Buffer.ofBytes bytes) (State.reset.present (Buffer.ofBytes bytes))) := rfl
    have hreads : stepReads (State.reset.present (Buffer.ofBytes bytes)) = [] := rfl
    rw [runReads_succ hstep, hreads, beginCall_malformed hb, runReads_awaiting (by simp) (by simp), List.append_nil]

/-! ### The ports -/

/-- Settles O1: power-on, evaluated. -/
theorem resetShowsNothing : Obligations.ResetShowsNothing :=
  ⟨rfl, rfl, rfl, rfl, rfl⟩

theorem State.ports_fault {s : State} (hp : s.phase = .fault) : s.ports = { errPorts s.err with fault := true } := by
  simp [State.ports, hp]

theorem State.ports_done {s : State} (hp : s.phase = .done) :
    s.ports = { Ports.silent with done := true, secondsOut := some s.seconds, hitsOut := some s.hits } := by
  simp [State.ports, hp]

/-- Before and during a call no port shows a value. -/
theorem State.ports_silent {s : State} (hd : s.phase ≠ .done) (hf : s.phase ≠ .fault) : s.ports = Ports.silent := by
  cases hp : s.phase with
  | idle | scan => simp [State.ports, hp]
  | done => exact absurd hp hd
  | fault => exact absurd hp hf

/-- The error ports alone raise no level and show no count. -/
theorem errPorts_counts (e : Option Err) :
    (errPorts e).done = false ∧ (errPorts e).secondsOut = none ∧ (errPorts e).hitsOut = none := by
  match e with
  | none => exact ⟨rfl, rfl, rfl⟩
  | some (.malformedLength _) => exact ⟨rfl, rfl, rfl⟩
  | some (.truncatedFrame _ _) => exact ⟨rfl, rfl, rfl⟩

/-- Settles O36: the ports of a state in FAULT are those of its error. -/
theorem errorPortsCarryTheCodes : Obligations.ErrorPortsCarryTheCodes := by
  refine ⟨fun s l hp he => ?_, fun s k ix hp he => ?_, rfl, rfl, rfl, rfl, rfl⟩
  · rw [State.ports_fault hp, he]
    exact ⟨rfl, rfl, rfl, rfl, rfl, rfl⟩
  · rw [State.ports_fault hp, he]
    exact ⟨rfl, rfl, rfl, rfl, rfl, rfl⟩

/-- Settles O37: in DONE, in FAULT, and in the two silent phases. -/
theorem portsShowOnlyWhatIsValid : Obligations.PortsShowOnlyWhatIsValid := by
  intro s
  by_cases hd : s.phase = .done
  · rw [State.ports_done hd]
    simp [hd, Ports.silent, eq_comm]
  by_cases hf : s.phase = .fault
  · obtain ⟨hdone, hseconds, hhits⟩ := errPorts_counts s.err
    rw [State.ports_fault hf]
    simp [hf, hdone, hseconds, hhits]
  · rw [State.ports_silent hd hf]
    simp [hd, hf, Ports.silent]

end Sys2Proof.Machine

/-!
PROOF. The words a scan reads (spec/20_memory.md R37, R41). The buffer enters a step through its word count and the words
read alone, so a step commutes with exchanging it for one that agrees in these; and each step reads below where it leaves
the cursor.
-/
namespace Sys2Proof.Machine

/-! ### Another buffer with the same length and the words read -/

/-- The state with another buffer. -/
def State.withBuf (b : Buffer) (s : State) : State :=
  { s with buf := b }

@[simp] theorem State.withBuf_i (b : Buffer) (s : State) : (s.withBuf b).i = s.i := rfl
@[simp] theorem State.withBuf_buf (b : Buffer) (s : State) : (s.withBuf b).buf = b := rfl

theorem Buffer.wordCount_eq_of_len_eq {b b' : Buffer} (h : b.len = b'.len) : b.wordCount = b'.wordCount := by
  rw [Buffer.wordCount, h, Buffer.wordCount]

section
variable {b : Buffer} {s : State} (hwc : b.wordCount = s.buf.wordCount)
include hwc

theorem hasSecondWord_withBuf : hasSecondWord (s.withBuf b) = hasSecondWord s := by
  simp [hasSecondWord, hwc]

theorem finishHit_withBuf (n : Nibble) : finishHit n (s.withBuf b) = (finishHit n s).withBuf b := by
  have hfits : payloadFits (s.withBuf b) (extraWords n) = payloadFits s (extraWords n) := by simp [payloadFits, hwc]
  rw [finishHit, finishHit, hfits, apply_ite (State.withBuf b)]
  rfl

theorem instrReads_withBuf (i : Instr) : instrReads i (s.withBuf b) = instrReads i s := by
  cases i with
  | ppsSecond lo24 | ppsYear lo24 | trigConfig lo24 | dataFormat lo24 => rfl
  | hit tag lo24 => rw [instrReads, instrReads, hasSecondWord_withBuf hwc]; rfl

theorem exec_withBuf {i : Instr} {t : State} (hreads : ∀ k ∈ instrReads i s, b.word k = s.buf.word k)
    (h : exec i s = .next t) : exec i (s.withBuf b) = .next (t.withBuf b) := by
  cases i with
  | ppsSecond lo | ppsYear lo | dataFormat lo => cases h; rfl
  | trigConfig lo =>
    obtain ⟨hi, he⟩ | ⟨hi, he⟩ := execTrigConfig_cases lo s
    · cases he.symm.trans h
      exact execTrigConfig_fits lo (s := s.withBuf b) (hwc ▸ hi)
    · cases he.symm.trans h
      exact execTrigConfig_truncated lo (s := s.withBuf b) (hwc ▸ hi)
  | hit tag lo =>
    obtain ⟨c, hi, hc, he⟩ | ⟨hi, he⟩ := execHit_cases tag lo s
    · cases he.symm.trans h
      have hword : b.word (s.i + 1) = some c := (hreads _ (by simp [instrReads, hi])).trans hc
      rw [← finishHit_withBuf hwc]
      exact execHit_counted tag lo (s := s.withBuf b) (hwc ▸ hi) hword
    · cases he.symm.trans h
      exact execHit_truncated tag lo (s := s.withBuf b) (hwc ▸ hi)

end

/-- Every record reads its header (R37). -/
theorem cursor_mem_instrReads (i : Instr) (s : State) : s.i ∈ instrReads i s := by
  cases i with
  | ppsSecond lo24 | ppsYear lo24 | trigConfig lo24 | dataFormat lo24 => exact List.mem_singleton_self _
  | hit tag lo24 =>
    by_cases hi : s.i + 1 < s.buf.wordCount
    · simp [instrReads_hit_counted tag lo24 hi]
    · simp [instrReads_hit_truncated tag lo24 (Nat.le_of_not_lt hi)]

/-- Settles O21: the return reads nothing; a record's header is read, so the other buffer gives the same instruction, and
that commutes with the exchange. -/
theorem stepDependsOnlyOnTheWordsItReads : Obligations.StepDependsOnlyOnTheWordsItReads := by
  intro s t b hp hlen hreads h
  have hwc : b.wordCount = s.buf.wordCount := Buffer.wordCount_eq_of_len_eq hlen
  obtain ⟨hne, -⟩ | ⟨_, hne, -⟩ | ⟨-, hs, hi, rfl⟩ | ⟨w, -, hs, hi, hw, he⟩ := step_cases h
  · exact absurd hp hne
  · exact absurd hp hne
  · have hend : (s.withBuf b).buf.wordCount ≤ (s.withBuf b).i := hwc ▸ hi
    constructor
    · exact (step_scan (s := s.withBuf b) hp hs).trans (scanStep_end hend)
    · rw [stepReads_eq_nil fun ⟨_, _, hlt⟩ => Nat.not_lt.mpr hi hlt]
      exact stepReads_eq_nil fun ⟨_, _, hlt⟩ => Nat.not_lt.mpr hend hlt
  · have hscanning : (s.withBuf b).Scanning := ⟨hp, hs, hwc ▸ hi⟩
    have hrecord : stepReads s = instrReads (decodeWord w) s := stepReads_record ⟨hp, hs, hi⟩ hw
    rw [hrecord] at hreads ⊢
    have hheader : s.i ∈ instrReads (decodeWord w) s := cursor_mem_instrReads _ s
    have hword : (s.withBuf b).buf.word (s.withBuf b).i = some w := (hreads _ hheader).trans hw
    exact ⟨(step_record hscanning hword).trans (exec_withBuf hwc hreads he),
      (stepReads_record hscanning hword).trans (instrReads_withBuf hwc _)⟩

/-! ### The order of the reads -/

theorem width_pos (k : Kind) (n : Nibble) : 0 < width k n := by
  cases k with
  | ppsSecond | ppsYear | trigConfig | dataFormat => simp
  | hit => rw [width_hit]; omega

theorem instrReads_sorted (i : Instr) (s : State) : (instrReads i s).Pairwise (· < ·) := by
  cases i with
  | ppsSecond lo24 | ppsYear lo24 | trigConfig lo24 | dataFormat lo24 => simp [instrReads]
  | hit tag lo24 =>
    by_cases hi : s.i + 1 < s.buf.wordCount
    · simp [instrReads_hit_counted tag lo24 hi]
    · simp [instrReads_hit_truncated tag lo24 (Nat.le_of_not_lt hi)]

/-- One step reads upwards: nothing, or the header and then the count word. -/
theorem stepReads_sorted (s : State) : (stepReads s).Pairwise (· < ·) := by
  by_cases hs : s.Scanning
  · have ⟨_, _, hi⟩ := hs
    rw [stepReads_record hs (Buffer.word_of_lt hi)]
    exact instrReads_sorted _ s
  · simp [stepReads_eq_nil hs]

/-- No step reads behind the cursor. -/
theorem le_of_mem_stepReads {s : State} {k : Nat} (h : k ∈ stepReads s) : s.i ≤ k := by
  obtain ⟨-, w, -, hk⟩ := mem_stepReads h
  obtain rfl | ⟨-, -, rfl⟩ := mem_instrReads hk
  · exact Nat.le_refl _
  · exact Nat.le_succ _

/-- A step that goes on leaves the cursor past every word it read: a record is no shorter than what is read of it (R57). -/
theorem lt_cursor_of_mem_stepReads {s t : State} {k : Nat} (h : step s = .next t) (ht : t.phase = .scan)
    (hk : k ∈ stepReads s) : k < t.i := by
  obtain ⟨hs, w, hw, hk⟩ := mem_stepReads hk
  rw [step_record hs hw] at h
  obtain ⟨n, hcursor, -⟩ := exec_cursor_of_phase_ne_fault h (by simp [ht])
  rw [hcursor]
  obtain rfl | ⟨hhit, -, rfl⟩ := mem_instrReads hk
  · exact Nat.lt_add_of_pos_right (width_pos _ n)
  · rw [hhit, width_hit]
    omega

/-- Settles O22, by induction on the number of steps: the rest of a scan reads from its cursor on, which is past what the
first step read; a scan that has ended reads nothing. -/
theorem readsOnlyMoveForward : Obligations.ReadsOnlyMoveForward := by
  intro n
  induction n with
  | zero => simp [runReads]
  | succ n ih =>
    intro s hp hs
    obtain ⟨t, ht, hts, hrest⟩ := step_progress hp hs
    have hfirst : ∀ k ∈ stepReads s, s.i ≤ k ∧ k < s.buf.wordCount :=
      fun k hk => ⟨le_of_mem_stepReads hk, stepReads_lt_wordCount hk⟩
    rw [runReads_succ ht]
    obtain hover | ⟨htp, hlt, -⟩ := hrest
    · have hne : t.phase ≠ .scan := by obtain h | h := phase_of_outcome_isSome hover <;> simp [h]
      rw [runReads_awaiting hne hts, List.append_nil]
      exact ⟨stepReads_sorted s, hfirst⟩
    · obtain ⟨hsorted, hrange⟩ := ih t htp hts
      rw [step_scan_buf hp hs ht] at hrange
      refine ⟨List.pairwise_append.mpr ⟨stepReads_sorted s, hsorted, fun k hk k' hk' => ?_⟩, fun k hk => ?_⟩
      · exact Nat.lt_of_lt_of_le (lt_cursor_of_mem_stepReads ht htp hk) (hrange k' hk').1
      · obtain hk | hk := List.mem_append.mp hk
        · exact hfirst k hk
        · obtain ⟨hle, hk⟩ := hrange k hk
          exact ⟨by omega, hk⟩

end Sys2Proof.Machine

/-!
PROOF. Several instances (spec/20_memory.md R45, spec/60_exceptions.md R121). An instance's state in the list is changed by
its own steps only, so a schedule acts on it as that many steps of it alone.
-/
namespace Sys2Proof.Machine

/-- A step of instance j steps instance k if j = k, and else leaves it (R121). -/
theorem stepInstance_get (j k : Nat) (ss : List State) :
    (stepInstance j ss)[k]? = (ss[k]?).map (if j = k then stepOrStay else id) := by
  rw [stepInstance, List.getElem?_modify]
  split <;> rfl

/-- Under any schedule an instance makes the steps the schedule gives it, as if alone. -/
theorem runSchedule_get (schedule : List Nat) (ss : List State) (k : Nat) :
    (runSchedule schedule ss)[k]? = (ss[k]?).map (runAlone (schedule.count k)) := by
  induction schedule generalizing ss with
  | nil => exact (congrFun Option.map_id _).symm
  | cons j schedule ih =>
    rw [runSchedule, ih, stepInstance_get, Option.map_map]
    by_cases hjk : j = k
    · rw [if_pos hjk, hjk, List.count_cons_self]
      rfl
    · rw [if_neg hjk, List.count_cons_of_ne (by simpa using hjk), Function.comp_id]

/-- Where every step answers a next state, running alone is making the steps. -/
theorem runAlone_eq_of_runSteps {n : Nat} {s t : State} (h : runSteps n s = some t) : runAlone n s = t := by
  induction n generalizing s with
  | zero => exact Option.some.inj h
  | succ n ih =>
    cases hstep : step s with
    | next u =>
      rw [runSteps_succ hstep] at h
      rw [runAlone, stepOrStay, hstep]
      exact ih h
    | fault r => simp [runSteps, hstep] at h
    | refused r => simp [runSteps, hstep] at h

theorem runSteps_add (m n : Nat) (s : State) : runSteps (m + n) s = (runSteps m s).bind (runSteps n) := by
  induction m generalizing s with
  | zero => simp [runSteps]
  | succ m ih =>
    rw [Nat.add_right_comm]
    cases hstep : step s with
    | next t => rw [runSteps_succ hstep, runSteps_succ hstep, ih]
    | fault r => simp [runSteps, hstep]
    | refused r => simp [runSteps, hstep]

/-- With no start pending a run in SCAN keeps the buffer, and no start is pending after it (R36). -/
theorem runSteps_buf {n : Nat} {s t : State} (hs : s.start = none) (h : runSteps n s = some t) :
    t.buf = s.buf ∧ t.start = none := by
  induction n generalizing s with
  | zero => cases h; exact ⟨rfl, hs⟩
  | succ n ih =>
    obtain ⟨u, hu, hus⟩ := step_answers hs
    rw [runSteps_succ hu] at h
    obtain ⟨hbuf, hts⟩ := ih hus h
    refine ⟨hbuf.trans ?_, hts⟩
    by_cases hp : s.phase = .scan
    · exact step_scan_buf hp hs hu
    · rw [step_not_scan hp, awaitStart_none hs] at hu
      cases hu
      rfl

theorem beginCall_buf (b : Buffer) (s : State) : (beginCall b s).buf = b := by
  unfold beginCall
  split <;> rfl

theorem beginCall_start (b : Buffer) (s : State) : (beginCall b s).start = none := by
  unfold beginCall
  split <;> rfl

/-- A call given its steps ends in a state that shows the reference function's outcome, over the buffer lent. -/
theorem runSteps_callSteps {s : State} (hp : s.phase ≠ .scan) (b : Buffer) :
    ∃ t, runSteps (callSteps b) (s.present b) = some t ∧ t.outcome = referenceDecode b ∧ t.outcome.isSome ∧
      t.buf = b ∧ t.start = none := by
  have hcall := callOutcome_eq_referenceDecode hp b
  have hsome := referenceDecode_isSome b
  rw [callOutcome_eq_bind] at hcall
  cases hrun : runSteps (callSteps b) (s.present b) with
  | none =>
    rw [hrun] at hcall
    rw [← hcall] at hsome
    cases hsome
  | some t =>
    rw [hrun, Option.bind_some] at hcall
    have hstep : step (s.present b) = .next (beginCall b (s.present b)) := by
      rw [step_not_scan (by simpa using hp), awaitStart_some (State.present_start s b)]
    rw [callSteps, runSteps_succ hstep] at hrun
    obtain ⟨hbuf, hstart⟩ := runSteps_buf (beginCall_start b _) hrun
    exact ⟨t, rfl, hcall, hcall ▸ hsome, hbuf.trans (beginCall_buf b _), hstart⟩

/-- Further steps change nothing: the outcome is held until the next call (R139). -/
theorem runSteps_of_callSteps_le {n : Nat} {s : State} (hp : s.phase ≠ .scan) {b : Buffer} (hn : callSteps b ≤ n) :
    ∃ t, runSteps n (s.present b) = some t ∧ t.outcome = referenceDecode b ∧ t.buf = b := by
  obtain ⟨t, ht, hout, hover, hbuf, hts⟩ := runSteps_callSteps hp b
  have hne : t.phase ≠ .scan := by obtain h | h := phase_of_outcome_isSome hover <;> simp [h]
  refine ⟨t, ?_, hout, hbuf⟩
  rw [← Nat.add_sub_cancel' hn, runSteps_add, ht, Option.bind_some, runSteps_awaiting hne hts]

/-- Settles O56: each instance runs alone, and alone its call shows the reference function's outcome. -/
theorem instancesAreIndependent : Obligations.InstancesAreIndependent := by
  refine ⟨runSchedule_get, fun schedule ss b k s hk hp hn => ?_⟩
  obtain ⟨t, ht, hout, hbuf⟩ := runSteps_of_callSteps_le hp hn
  refine ⟨t, ?_, hout, hbuf⟩
  rw [runSchedule_get, List.getElem?_map, hk, Option.map_some, Option.map_some, runAlone_eq_of_runSteps ht]

end Sys2Proof.Machine

/-!
PROOF. The reference loop's body (spec/40_scan_control.md R77, R81) as a function of the header's kind and the count word's
nibble: where it goes on does not depend on the counters, and buffers that agree in what it examines are decoded alike.
-/
namespace Sys2Proof.Machine

/-! ### The body, by the word under the cursor -/

theorem loopBody_end {b : Buffer} {i : Nat} (hi : b.wordCount ≤ i) (seconds hits : Nat) :
    loopBody b i seconds hits = some (.ended (.ok seconds hits)) :=
  if_pos hi

theorem loopBody_record {b : Buffer} {i : Nat} {w : Word} (hi : i < b.wordCount) (hw : b.word i = some w)
    (seconds hits : Nat) : loopBody b i seconds hits = loopKind b (kindOfTag (tagOf w)) i seconds hits := by
  rw [loopBody, if_neg (Nat.not_le.mpr hi), hw, ← loopCase_eq_loopKind, tagOf_toNat]

/-- Everything the HIT arm can do. -/
theorem loopHit_cases (b : Buffer) (i seconds hits : Nat) :
    (∃ c, b.word (i + 1) = some c ∧ i + 2 + extraWords (adcCountOf c) ≤ b.wordCount ∧
      loopHit b i seconds hits = some (.again (i + 2 + extraWords (adcCountOf c)) seconds (hits + 1))) ∨
    loopHit b i seconds hits = some (.ended (.truncatedFrame .hit i)) := by
  by_cases hi : i + 1 < b.wordCount
  · obtain ⟨c, hc⟩ : ∃ c, b.word (i + 1) = some c := ⟨_, Buffer.word_of_lt hi⟩
    by_cases hfit : i + 2 + extraWords (adcCountOf c) ≤ b.wordCount
    · exact .inl ⟨c, hc, hfit, loopHit_counted hi hc hfit seconds hits⟩
    · exact .inr (loopHit_payload_truncated hi hc (Nat.lt_of_not_le hfit) seconds hits)
  · exact .inr (loopHit_header_truncated (Nat.le_of_not_lt hi) seconds hits)

/-- Where the loop goes on, the cursor has moved forward over words that exist, and each counter has grown by at most 1. -/
theorem loopBody_again {b : Buffer} {i seconds hits i' seconds' hits' : Nat}
    (h : loopBody b i seconds hits = some (.again i' seconds' hits')) :
    i < i' ∧ i' ≤ b.wordCount ∧ seconds' ≤ seconds + 1 ∧ hits' ≤ hits + 1 := by
  by_cases hi : i < b.wordCount
  · rw [loopBody_record hi (Buffer.word_of_lt hi)] at h
    generalize kindOfTag (tagOf _) = k at h
    cases k with
    | ppsSecond | ppsYear | dataFormat => cases h; omega
    | trigConfig =>
      simp only [loopKind, Option.some.injEq] at h
      split at h
      · cases h; omega
      · cases h
    | hit =>
      obtain ⟨c, -, hfit, he⟩ | he := loopHit_cases b i seconds hits <;> cases he.symm.trans h
      omega
  · rw [loopBody_end (Nat.le_of_not_lt hi)] at h
    cases h

/-- Where the loop goes on from, if it does. -/
def LoopResult.cursor : LoopResult → Option Nat
  | .again i _ _ => some i
  | .ended _ => none

/-- Whether the loop goes on, and where, does not depend on the counters. -/
theorem loopBody_cursor (b : Buffer) (i seconds hits : Nat) :
    (loopBody b i seconds hits).bind LoopResult.cursor = (loopBody b i 0 0).bind LoopResult.cursor := by
  by_cases hi : i < b.wordCount
  · rw [loopBody_record hi (Buffer.word_of_lt hi), loopBody_record hi (Buffer.word_of_lt hi)]
    generalize kindOfTag (tagOf _) = k
    cases k with
    | ppsSecond | ppsYear | dataFormat => rfl
    | trigConfig => simp only [loopKind]; split <;> rfl
    | hit =>
      simp only [loopKind, loopHit]
      split
      · cases b.word (i + 1) with
        | none => rfl
        | some c => simp only [Option.map_some]; split <;> rfl
      · rfl
  · rw [loopBody_end (Nat.le_of_not_lt hi), loopBody_end (Nat.le_of_not_lt hi)]
    rfl

/-! ### What the loop examines -/

/-- The nibble of the count word, where there is one (R96). -/
def examinedNibble (b : Buffer) (i : Nat) : Option Nat :=
  if i + 1 < b.wordCount then (b.word (i + 1)).map fun c => c.toNat >>> 28 &&& 0xF else none

/-- The entry of `examined` for the header w at i. -/
def examinedEntry (b : Buffer) (i : Nat) (w : Word) : Nat × Nat × Option Nat :=
  (i, w.toNat >>> 24, if isMarkerTag (tagOf w) then none else examinedNibble b i)

/-- The entries from where the loop goes on; none if it ends. -/
def examinedRest (b : Buffer) (fuel : Nat) : Option Nat → List (Nat × Nat × Option Nat)
  | some i => examined b fuel i
  | none => []

theorem examined_record {b : Buffer} {i : Nat} {w : Word} {r : LoopResult} (hw : b.word i = some w)
    (hr : loopBody b i 0 0 = some r) (fuel : Nat) :
    examined b (fuel + 1) i = examinedEntry b i w :: examinedRest b fuel r.cursor := by
  rw [examined, hw, hr]
  cases r <;> rfl

/-- With a record under the cursor the body answers. -/
theorem loopBody_isSome {b : Buffer} {i : Nat} (hi : i < b.wordCount) (seconds hits : Nat) :
    ∃ r, loopBody b i seconds hits = some r := by
  rw [loopBody_record hi (Buffer.word_of_lt hi)]
  generalize kindOfTag (tagOf _) = k
  cases k with
  | ppsSecond | ppsYear | dataFormat | trigConfig => exact ⟨_, rfl⟩
  | hit => obtain ⟨_, -, -, h⟩ | h := loopHit_cases b i seconds hits <;> exact ⟨_, h⟩

/-- The HIT arm uses the length and the nibble only (R81). -/
theorem loopHit_congr {b b' : Buffer} {i : Nat} (hwc : b.wordCount = b'.wordCount)
    (hn : examinedNibble b i = examinedNibble b' i) (seconds hits : Nat) :
    loopHit b i seconds hits = loopHit b' i seconds hits := by
  by_cases hi : i + 1 < b.wordCount
  · have hi' : i + 1 < b'.wordCount := hwc ▸ hi
    have hc := Buffer.word_of_lt hi
    have hc' := Buffer.word_of_lt hi'
    simp only [examinedNibble, if_pos hi, if_pos hi', hc, hc', Option.map_some, Option.some.injEq] at hn
    simp only [loopHit, if_pos hi', hc, hc', Option.map_some, hn, hwc]
  · rw [loopHit_header_truncated (Nat.le_of_not_lt hi), loopHit_header_truncated (hwc ▸ Nat.le_of_not_lt hi)]

/-- Buffers with the same entry at the cursor give the same answer of the body (R81). -/
theorem loopBody_congr {b b' : Buffer} {i : Nat} {w w' : Word} (hwc : b.wordCount = b'.wordCount) (hi : i < b.wordCount)
    (hw : b.word i = some w) (hw' : b'.word i = some w') (he : examinedEntry b i w = examinedEntry b' i w')
    (seconds hits : Nat) : loopBody b i seconds hits = loopBody b' i seconds hits := by
  simp only [examinedEntry, Prod.mk.injEq, true_and, ← tagOf_toNat, BitVec.toNat_inj] at he
  obtain ⟨htag, hnibble⟩ := he
  rw [loopBody_record hi hw, loopBody_record (hwc ▸ hi) hw', ← htag]
  rw [← htag] at hnibble
  cases hk : kindOfTag (tagOf w) with
  | ppsSecond | ppsYear | dataFormat => rfl
  | trigConfig => simp only [loopKind, hwc]
  | hit =>
    have hmarker : isMarkerTag (tagOf w) = false := (kindOfTag_hit_iff _).mp hk
    exact loopHit_congr hwc (by simpa [hmarker] using hnibble) seconds hits

theorem decodeLoop_end {b : Buffer} {i : Nat} (hi : b.wordCount ≤ i) (n seconds hits : Nat) :
    decodeLoop b (n + 1) i seconds hits = some (.ok seconds hits) := by
  rw [decodeLoop, loopBody_end hi]

/-- From a cursor whose remaining records all have the same entries, the loops agree at every fuel and from all counts. -/
theorem decodeLoop_congr {b b' : Buffer} (hwc : b.wordCount = b'.wordCount) {fuel i : Nat} (hfuel : b.wordCount - i < fuel)
    (he : examined b fuel i = examined b' fuel i) (n seconds hits : Nat) :
    decodeLoop b n i seconds hits = decodeLoop b' n i seconds hits := by
  induction fuel generalizing i n seconds hits with
  | zero => omega
  | succ fuel ih =>
    cases n with
    | zero => rfl
    | succ n =>
      by_cases hi : i < b.wordCount
      · have hw := Buffer.word_of_lt hi
        have hw' := Buffer.word_of_lt (hwc ▸ hi)
        obtain ⟨r, hr⟩ := loopBody_isSome hi 0 0
        obtain ⟨r', hr'⟩ := loopBody_isSome (hwc ▸ hi) 0 0
        rw [examined_record hw hr, examined_record hw' hr', List.cons.injEq] at he
        obtain ⟨hentry, hrest⟩ := he
        have hbody := loopBody_congr hwc hi hw hw' hentry
        cases (hr.symm.trans (hbody 0 0)).trans hr'
        have hcursor := loopBody_cursor b i seconds hits
        rw [hr] at hcursor
        rw [decodeLoop, decodeLoop, ← hbody]
        cases hs : loopBody b i seconds hits with
        | none => rfl
        | some answer =>
          cases answer with
          | ended o => rfl
          | again i' seconds' hits' =>
            rw [hs] at hcursor
            obtain ⟨hlt, -⟩ := loopBody_again hs
            rw [← show some i' = r.cursor from hcursor] at hrest
            exact ih (by omega) hrest n seconds' hits'
      · rw [decodeLoop_end (Nat.le_of_not_lt hi), decodeLoop_end (hwc ▸ Nat.le_of_not_lt hi)]

/-- Settles O44: the call entry uses the length, and the run is the loop (`runSteps_outcome_eq_decodeLoop`). -/
theorem ignoredBitsNeverMatter : Obligations.IgnoredBitsNeverMatter := by
  intro b b' n s hp hlen he
  have hwc : b.wordCount = b'.wordCount := Buffer.wordCount_eq_of_len_eq hlen
  have haligned : b.aligned = b'.aligned := by rw [Buffer.aligned, hlen, Buffer.aligned]
  cases hb : b.aligned with
  | false => rw [callOutcome_malformed hb hp, callOutcome_malformed (haligned ▸ hb) hp, hlen]
  | true =>
    rw [callOutcome_aligned hb hp, callOutcome_aligned (haligned ▸ hb) hp, runSteps_outcome_eq_decodeLoop n rfl rfl,
      runSteps_outcome_eq_decodeLoop n rfl rfl]
    rw [← hwc] at he
    exact decodeLoop_congr hwc (fuel := b.wordCount + 1) (by omega) he n 0 0

end Sys2Proof.Machine

/-!
PROOF. The fixed-width builds (spec/00_scope.md R6, spec/70_reset_and_hazards.md R137). A sum that stays below 2^w is the sum
of naturals; the guarantee word_count + 7 < 2^IDX_W and the counts' bound by the cursor keep every sum of a scan there, so
the fixed-width body has the value of the reference loop's body.
-/
namespace Sys2Proof.Machine

/-! ### Sums that do not wrap -/

theorem toNat_add_ofNat {w k : Nat} {x : BitVec w} (h : x.toNat + k < 2 ^ w) :
    (x + BitVec.ofNat w k).toNat = x.toNat + k := by
  rw [BitVec.toNat_add, BitVec.toNat_ofNat, Nat.add_mod_mod, Nat.mod_eq_of_lt h]

theorem two_add_fixedExtra (w : Nat) (n : Nibble) : 2#w + fixedExtra w n = BitVec.ofNat w (2 + extraWords n) :=
  (BitVec.ofNat_add ..).symm

/-- R58's bound: at most 7 payload words. -/
theorem extraWords_le (n : Nibble) : extraWords n ≤ 7 := by
  have := n.isLt
  rw [extraWords_eq_div]
  omega

theorem fixedHasSecond_eq {w : Nat} {i wc : BitVec w} (h : i.toNat + 1 < 2 ^ w) :
    fixedHasSecond i wc = decide (i.toNat + 1 < wc.toNat) := by
  rw [fixedHasSecond, BitVec.ult_eq_decide, toNat_add_ofNat h]

theorem fixedPayloadFits_eq {w : Nat} {i wc : BitVec w} {n : Nibble} (h : i.toNat + 2 + extraWords n < 2 ^ w) :
    fixedPayloadFits i wc (fixedExtra w n) = decide (i.toNat + 2 + extraWords n ≤ wc.toNat) := by
  rw [fixedPayloadFits, BitVec.ule_eq_decide, BitVec.add_assoc, two_add_fixedExtra, toNat_add_ofNat (by omega),
    Nat.add_assoc]

/-- Settles O45: below the bound neither test's sum wraps. -/
theorem fixedWidthBoundsTestsAreExact : Obligations.FixedWidthBoundsTestsAreExact := by
  intro w i wc n hguard hi
  have hiNat : (BitVec.ofNat w i).toNat = i := Nat.mod_eq_of_lt (by omega)
  have hwcNat : (BitVec.ofNat w wc).toNat = wc := Nat.mod_eq_of_lt (by omega)
  have hextra : extraWords n ≤ 7 := extraWords_le n
  refine ⟨?_, fun hi' => ?_⟩
  · rw [fixedHasSecond_eq (by omega), hiNat, hwcNat]
  · rw [fixedPayloadFits_eq (by omega), hiNat, hwcNat, extraWords_eq_div]

/-- Settles O46: with word_count = 2^w - 1 and the cursor two before it, a HIT of n = 2 sums to 2^w, which wraps to 0. -/
theorem wrappedSumWouldPassTheTest : Obligations.WrappedSumWouldPassTheTest := by
  intro w hw
  have hpow : 2 ^ 2 ≤ 2 ^ w := Nat.pow_le_pow_right (by decide) hw
  have hsum : BitVec.ofNat w (2 ^ w - 3) + 2#w + fixedExtra w 2 = 0#w := by
    rw [BitVec.add_assoc, two_add_fixedExtra, ← BitVec.ofNat_add, show extraWords 2 = 1 from rfl,
      Nat.sub_add_cancel (by omega)]
    exact BitVec.eq_of_toNat_eq (by rw [BitVec.toNat_ofNat, Nat.mod_self, BitVec.toNat_zero])
  refine ⟨2 ^ w - 3, 2 ^ w - 1, 2, by omega, by omega, ?_, ?_, ?_⟩
  · rw [← extraWords_eq_div, show extraWords 2 = 1 from rfl]
    omega
  · rw [fixedPayloadFits, hsum, BitVec.ule_eq_decide]
    simp
  · rw [hsum, BitVec.toNat_zero]
    omega

/-- Settles O57: 4 * (2^w - 8) bytes are 2^w - 8 words, and fewer than 2^(w + 2) bytes. -/
theorem defaultBuildsMeetTheConstraints : Obligations.DefaultBuildsMeetTheConstraints := by
  refine ⟨rfl, by decide, fun w c hw hwc => ⟨?_, hwc, ?_⟩⟩
  · have hpow : 2 ^ 3 ≤ 2 ^ w := Nat.pow_le_pow_right (by decide) hw
    simp only [Config.wordBytes]
    omega
  · have hpos : 0 < 2 ^ w := Nat.two_pow_pos w
    simp only [Nat.pow_add]
    omega

/-! ### The simulation -/

section
variable {p : Build} {b : Buffer}

/-- The numbers the registers hold, as the reference loop would carry them on. -/
def FixedRegs.value (r : FixedRegs p) : LoopResult :=
  .again r.i.toNat r.seconds.toNat r.hits.toNat

/-- A fixed-width answer, in numbers. -/
def FixedResult.value : FixedResult p → LoopResult
  | .again r => r.value
  | .ended o => .ended o.value

/-- The registers' range during a scan: it keeps every sum below its width. -/
def FixedRegs.InRange (b : Buffer) (r : FixedRegs p) : Prop :=
  r.i.toNat ≤ b.wordCount ∧ r.seconds.toNat ≤ r.i.toNat ∧ r.hits.toNat ≤ r.i.toNat

theorem FixedRegs.advance_value {r : FixedRegs p} {k : Nat} (h : r.i.toNat + k < 2 ^ p.idxW) :
    (r.advance (BitVec.ofNat p.idxW k)).value = .again (r.i.toNat + k) r.seconds.toNat r.hits.toNat := by
  rw [FixedRegs.value, FixedRegs.advance_i, toNat_add_ofNat h]
  rfl

theorem FixedRegs.countSecond_toNat {r : FixedRegs p} (h : r.seconds.toNat + 1 < 2 ^ p.cntW) :
    r.countSecond.seconds.toNat = r.seconds.toNat + 1 :=
  toNat_add_ofNat h

theorem FixedRegs.countHit_toNat {r : FixedRegs p} (h : r.hits.toNat + 1 < 2 ^ p.cntW) :
    r.countHit.hits.toNat = r.hits.toNat + 1 :=
  toNat_add_ofNat h

section
variable (hp : p.Valid) (hb : b.len ≤ p.maxBytes)
include hp hb

theorem fixedWordCount_value : (fixedWordCount (fixedInput p b)).toNat = b.wordCount := by
  have := Build.wordCount_lt hp hb
  exact fixedWordCount_input (Build.len_lt hp hb) (by omega)

theorem fixedHasSecond_value {i : BitVec p.idxW} (hi : i.toNat < b.wordCount) :
    fixedHasSecond i (fixedWordCount (fixedInput p b)) = decide (i.toNat + 1 < b.wordCount) := by
  have := Build.wordCount_lt hp hb
  rw [fixedHasSecond_eq (by omega), fixedWordCount_value hp hb]

/-- The HIT record has the value of the reference loop's HIT arm (R95). -/
theorem fixedHit_value {r : FixedRegs p} (hr : r.InRange b) (hi : r.i.toNat < b.wordCount) :
    (fixedHit (fixedInput p b) r).map FixedResult.value = loopHit b r.i.toNat r.seconds.toNat r.hits.toNat := by
  have hwc := Build.wordCount_lt hp hb
  obtain ⟨-, -, hhits⟩ := hr
  rw [fixedHit, fixedHasSecond_value hp hb hi]
  by_cases hi' : r.i.toNat + 1 < b.wordCount
  · obtain ⟨c, hc⟩ : ∃ c, b.word (r.i.toNat + 1) = some c := ⟨_, Buffer.word_of_lt hi'⟩
    have hextra : extraWords (adcCountOf c) ≤ 7 := extraWords_le _
    have hcount : r.hits.toNat + 1 < 2 ^ p.cntW := Build.counter_lt hp (by omega)
    have hnext : (r.i + 1#p.idxW).toNat = r.i.toNat + 1 := toNat_add_ofNat (by omega)
    have hread : fixedRdData (fixedInput p b) (r.i + 1#p.idxW) = some c := by
      rw [fixedRdData_input (Build.len_lt hp hb) (by omega), hnext, hc]
    have hfits := fixedPayloadFits_eq (wc := fixedWordCount (fixedInput p b)) (n := adcCountOf c)
      (show r.i.toNat + 2 + extraWords (adcCountOf c) < 2 ^ p.idxW by omega)
    rw [fixedWordCount_value hp hb] at hfits
    simp only [hi', decide_true, if_true, hread, Option.map_some, hfits, decide_eq_true_eq]
    by_cases hfit : r.i.toNat + 2 + extraWords (adcCountOf c) ≤ b.wordCount
    · rw [if_pos hfit, loopHit_counted hi' hc hfit, two_add_fixedExtra, FixedResult.value,
        FixedRegs.advance_value (by rw [FixedRegs.countHit_i]; omega), FixedRegs.countHit_toNat hcount, ← Nat.add_assoc]
      rfl
    · rw [if_neg hfit, loopHit_payload_truncated hi' hc (Nat.lt_of_not_le hfit)]
      rfl
  · rw [loopHit_header_truncated (Nat.le_of_not_lt hi')]
    simp only [hi', decide_false]
    rfl

/-- Each record has the value of the reference loop's case on its kind. -/
theorem fixedCase_value (k : Kind) {r : FixedRegs p} (hr : r.InRange b) (hi : r.i.toNat < b.wordCount) :
    (fixedCase (fixedInput p b) k r).map FixedResult.value = loopKind b k r.i.toNat r.seconds.toNat r.hits.toNat := by
  have hwc := Build.wordCount_lt hp hb
  have hone : (r.advance 1#p.idxW).value = .again (r.i.toNat + 1) r.seconds.toNat r.hits.toNat :=
    FixedRegs.advance_value (by omega)
  cases k with
  | ppsYear | dataFormat => exact congrArg some hone
  | ppsSecond =>
    obtain ⟨-, hseconds, -⟩ := hr
    have hcount : r.seconds.toNat + 1 < 2 ^ p.cntW := Build.counter_lt hp (by omega)
    have hvalue := FixedRegs.advance_value (r := r.countSecond) (k := 1) (by rw [FixedRegs.countSecond_i]; omega)
    rw [FixedRegs.countSecond_toNat hcount] at hvalue
    exact congrArg some hvalue
  | trigConfig =>
    rw [fixedCase, fixedHasSecond_value hp hb hi, loopKind]
    by_cases hi' : r.i.toNat + 1 < b.wordCount
    · simp only [hi', decide_true, if_true]
      exact congrArg some (FixedRegs.advance_value (by omega))
    · simp only [hi', decide_false, if_false]
      rfl
  | hit => exact fixedHit_value hp hb hr hi

/-- The fixed-width body has the value of the reference loop's body. -/
theorem fixedBody_value {r : FixedRegs p} (hr : r.InRange b) :
    (fixedBody (fixedInput p b) r).map FixedResult.value = loopBody b r.i.toNat r.seconds.toNat r.hits.toNat := by
  rw [fixedBody, BitVec.ule_eq_decide, fixedWordCount_value hp hb]
  by_cases hi : r.i.toNat < b.wordCount
  · obtain ⟨w, hw⟩ : ∃ w, b.word r.i.toNat = some w := ⟨_, Buffer.word_of_lt hi⟩
    have hread : fixedRdData (fixedInput p b) r.i = some w := by
      rw [fixedRdData_input (Build.len_lt hp hb) hi, hw]
    simp only [Nat.not_le.mpr hi, decide_false, Bool.false_eq_true, if_false, hread]
    rw [loopBody_record hi hw]
    exact fixedCase_value hp hb _ hr hi
  · simp only [Nat.le_of_not_lt hi, decide_true, if_true]
    exact (loopBody_end (Nat.le_of_not_lt hi) _ _).symm

/-- The scans agree at every fuel: a record that goes on leaves the registers in range (`loopBody_again`). -/
theorem fixedLoop_value (fuel : Nat) {r : FixedRegs p} (hr : r.InRange b) :
    (fixedLoop (fixedInput p b) fuel r).map FixedOutcome.value =
      decodeLoop b fuel r.i.toNat r.seconds.toNat r.hits.toNat := by
  induction fuel generalizing r with
  | zero => rfl
  | succ fuel ih =>
    have hbody := fixedBody_value hp hb hr
    rw [fixedLoop, decodeLoop]
    cases hf : fixedBody (fixedInput p b) r with
    | none =>
      rw [hf, Option.map_none] at hbody
      rw [← hbody]
      rfl
    | some answer =>
      rw [hf, Option.map_some] at hbody
      cases answer with
      | ended o =>
        rw [← hbody]
        rfl
      | again r' =>
        obtain ⟨hi, hseconds, hhits⟩ := hr
        obtain ⟨hlt, hle, hseconds', hhits'⟩ := loopBody_again hbody.symm
        rw [← hbody]
        exact ih ⟨hle, by omega, by omega⟩

/-- A call of a valid build over a buffer it accepts has the reference function's outcome. -/
theorem fixedCall_value : (fixedCall (fixedInput p b)).map FixedOutcome.value = referenceDecode b := by
  have hlen : b.len < 2 ^ p.lenW := Build.len_lt hp hb
  rw [fixedCall, fixedAligned_input hlen, fixedWordCount_value hp hb]
  cases ha : b.aligned with
  | false =>
    rw [referenceDecode_malformed ha]
    exact congrArg (fun n => some (CallOutcome.malformedLength n)) (fixedInput_len hlen)
  | true =>
    rw [referenceDecode_aligned ha, if_pos rfl, fixedLoop_value hp hb _ (by simp [FixedRegs.InRange])]
    simp

end

end

/-- Settles O47: a build accepts a buffer up to MAX_BYTES, and then its call has the reference outcome's value. -/
theorem fixedWidthBuildAgreesUpToMaxBytes : Obligations.FixedWidthBuildAgreesUpToMaxBytes := by
  intro p b hp
  refine ⟨fun hle => ?_, fun hlt => ?_⟩
  · rw [fixedDecode, fixedAccepts, if_pos (decide_eq_true hle), fixedCall_value hp hle]
  · rw [fixedDecode, fixedAccepts, if_neg (by simpa using hlt)]

end Sys2Proof.Machine

/-!
PROOF. Whole streams (spec/30_encoding.md R50, R60; spec/40_scan_control.md R80). Every word stream is, in one way, a list of
well-formed records and then words that begin no whole record (`exists_stream`); its outcome is read off these two parts
(`outcomeOfWords_stream`), and each law of streams is read off that.
-/
namespace Sys2Proof.Machine

/-! ### The words of a buffer made of words -/

theorem Buffer.aligned_ofWords (ws : List Word) : (Buffer.ofWords ws).aligned = true := by
  simp [Buffer.aligned_iff, Buffer.ofWords, Buffer.ofBytes, bytesOfWords_length]

theorem Buffer.wordCount_ofWords (ws : List Word) : (Buffer.ofWords ws).wordCount = ws.length := by
  simp [Buffer.wordCount, Config.wordBytes, Buffer.ofWords, Buffer.ofBytes, bytesOfWords_length]

/-- The word that stands after some words of the stream is the one read at their number (R31, R32). -/
theorem Buffer.word_ofWords (before : List Word) (w : Word) (after : List Word) :
    (Buffer.ofWords (before ++ w :: after)).word before.length = some w := by
  have hbyte : ∀ j, (Buffer.ofWords (before ++ w :: after)).byte (4 * before.length + j) =
      (bytesOfWord w ++ bytesOfWords after)[j]? := by
    intro j
    rw [Buffer.ofWords, Buffer.byte_ofBytes, bytesOfWords_append, ← bytesOfWords_length,
      List.getElem?_append_right (Nat.le_add_right _ _), Nat.add_sub_cancel_left, bytesOfWords]
  exact (Buffer.word_of_bytes (hbyte 0) (hbyte 1) (hbyte 2) (hbyte 3)).trans (congrArg some (wordOfBytes_bytes w))

/-! ### One record of the stream -/

theorem kindOfTag_header {i : Instr} (h : i.wellFormed = true) : kindOfTag (tagOf (encodeWord i)) = i.kind := by
  rw [← decodeWord_kind, decodeWord_encodeWord h]

theorem streamWords_append (rs rs' : List Record) : streamWords (rs ++ rs') = streamWords rs ++ streamWords rs' := by
  induction rs with
  | nil => rfl
  | cons r rs ih => rw [List.cons_append, streamWords, streamWords, ih, List.append_assoc]

theorem secondsIn_append (rs rs' : List Record) : secondsIn (rs ++ rs') = secondsIn rs + secondsIn rs' :=
  List.countP_append

theorem hitsIn_append (rs rs' : List Record) : hitsIn (rs ++ rs') = hitsIn rs + hitsIn rs' :=
  List.countP_append

/-- The loop's body over a well-formed record steps over its words and counts it (R50, R57, R60). -/
theorem loopBody_words {r : Record} (hr : r.wellFormed = true) (before rest : List Word) (seconds hits : Nat) :
    loopBody (Buffer.ofWords (before ++ (r.words ++ rest))) before.length seconds hits =
      some (.again (before.length + r.words.length) (seconds + secondsIn [r]) (hits + hitsIn [r])) := by
  have hheader : (Buffer.ofWords (before ++ (r.words ++ rest))).word before.length = some (encodeWord r.instr) :=
    Buffer.word_ofWords before (encodeWord r.instr) (r.tailWords ++ rest)
  rw [loopBody_record (Buffer.lt_wordCount_of_word hheader) hheader, kindOfTag_header (Record.instr_wellFormed hr)]
  cases r with
  | ppsSecond lo24 | ppsYear lo24 | dataFormat lo24 => rfl
  | trigConfig lo24 cfg =>
    have hi : before.length + 1 < (Buffer.ofWords (before ++ ((Record.trigConfig lo24 cfg).words ++ rest))).wordCount := by
      simp [Buffer.wordCount_ofWords, Record.words, Record.tailWords]
    exact congrArg some (if_pos hi)
  | hit tag lo24 n lo28 payload =>
    obtain ⟨-, hlen⟩ := Record.wellFormed_hit_iff.mp hr
    have hcount := Buffer.word_ofWords (before ++ [headerWord tag lo24]) (countWord n lo28) (payload ++ rest)
    rw [List.append_assoc, List.length_append] at hcount
    have hfit : before.length + 2 + extraWords (adcCountOf (countWord n lo28)) ≤
        (Buffer.ofWords (before ++ ((Record.hit tag lo24 n lo28 payload).words ++ rest))).wordCount := by
      simp [Buffer.wordCount_ofWords, Record.words, Record.tailWords, hlen]
      omega
    refine (loopHit_counted (Buffer.lt_wordCount_of_word hcount) hcount hfit seconds hits).trans ?_
    have hnext : before.length + 2 + extraWords (adcCountOf (countWord n lo28)) =
        before.length + (Record.hit tag lo24 n lo28 payload).words.length := by
      simp [Record.words, Record.tailWords, hlen]
      omega
    rw [hnext]
    rfl

/-! ### Words that begin no whole record -/

/-- The reader fails on a TRIG_CONFIG with no second word and on a HIT with too few words after its header only (R59). -/
theorem readTail_none {i : Instr} {ws : List Word} (h : readTail i ws = none) :
    (i.kind = .trigConfig ∧ ws = []) ∨ (i.kind = .hit ∧ ws = []) ∨
      ∃ c rest, i.kind = .hit ∧ ws = c :: rest ∧ rest.length < extraWords (adcCountOf c) := by
  cases i with
  | ppsSecond lo24 | ppsYear lo24 | dataFormat lo24 => cases h
  | trigConfig lo24 =>
    cases ws with
    | nil => exact .inl ⟨rfl, rfl⟩
    | cons cfg ws => cases h
  | hit tag lo24 =>
    cases ws with
    | nil => exact .inr (.inl ⟨rfl, rfl⟩)
    | cons c rest =>
      simp only [readTail, readHitTail] at h
      split at h
      · cases h
      · next hlen => exact .inr (.inr ⟨c, rest, rfl, rfl, Nat.lt_of_not_le hlen⟩)

/-- How a call ends whose cursor i has come to words that begin no whole record: at the end of the stream with the counts,
else with the truncation of the header under the cursor. -/
def streamEnd (seconds hits i : Nat) : List Word → CallOutcome
  | [] => .ok seconds hits
  | w :: _ => .truncatedFrame (kindOfTag (tagOf w)) i

theorem loopBody_streamEnd {rest : List Word} (h : readRecord rest = none) (before : List Word) (seconds hits : Nat) :
    loopBody (Buffer.ofWords (before ++ rest)) before.length seconds hits =
      some (.ended (streamEnd seconds hits before.length rest)) := by
  cases rest with
  | nil => exact loopBody_end (by simp [Buffer.wordCount_ofWords]) seconds hits
  | cons w ws =>
    have hheader := Buffer.word_ofWords before w ws
    rw [loopBody_record (Buffer.lt_wordCount_of_word hheader) hheader, streamEnd, ← decodeWord_kind]
    obtain ⟨hk, rfl⟩ | ⟨hk, rfl⟩ | ⟨c, rest, hk, rfl, hlen⟩ := readTail_none h
    · simp [hk, loopKind, Buffer.wordCount_ofWords]
    · rw [hk, loopKind, loopHit_header_truncated (by simp [Buffer.wordCount_ofWords])]
    · have hcount := Buffer.word_ofWords (before ++ [w]) c rest
      rw [List.append_assoc, List.length_append] at hcount
      have hshort : (Buffer.ofWords (before ++ w :: c :: rest)).wordCount <
          before.length + 2 + extraWords (adcCountOf c) := by
        simp [Buffer.wordCount_ofWords]
        omega
      rw [hk, loopKind]
      exact loopHit_payload_truncated (Buffer.lt_wordCount_of_word hcount) hcount hshort seconds hits

/-! ### The outcome of a stream -/

/-- R77's loop runs over well-formed records one by one. -/
theorem decodeLoop_records {rs : List Record} (hrs : ∀ r ∈ rs, r.wellFormed = true) (before rest : List Word)
    (n seconds hits : Nat) :
    decodeLoop (Buffer.ofWords (before ++ (streamWords rs ++ rest))) (rs.length + n) before.length seconds hits =
      decodeLoop (Buffer.ofWords (before ++ (streamWords rs ++ rest))) n (before.length + (streamWords rs).length)
        (seconds + secondsIn rs) (hits + hitsIn rs) := by
  induction rs generalizing before seconds hits with
  | nil => rw [List.length_nil, Nat.zero_add]; rfl
  | cons r rs ih =>
    obtain ⟨hr, hrs⟩ := List.forall_mem_cons.mp hrs
    have hrest := ih hrs (before ++ r.words) (seconds + secondsIn [r]) (hits + hitsIn [r])
    have hseconds : secondsIn (r :: rs) = secondsIn [r] + secondsIn rs := secondsIn_append [r] rs
    have hhits : hitsIn (r :: rs) = hitsIn [r] + hitsIn rs := hitsIn_append [r] rs
    rw [List.append_assoc, List.length_append] at hrest
    rw [List.length_cons, Nat.add_right_comm, streamWords, List.append_assoc, decodeLoop, loopBody_words hr]
    simpa [hseconds, hhits, Nat.add_assoc] using hrest

theorem length_le_streamWords (rs : List Record) : rs.length ≤ (streamWords rs).length := by
  induction rs with
  | nil => exact Nat.le_refl 0
  | cons r rs ih => simp [streamWords, Record.words]; omega

theorem outcomeOfWords_eq_decodeLoop (ws : List Word) :
    outcomeOfWords ws = decodeLoop (Buffer.ofWords ws) (ws.length + 1) 0 0 0 := by
  have hcall : outcomeOfWords ws = referenceDecode (Buffer.ofWords ws) :=
    callOutcome_eq_referenceDecode (by decide) _
  rw [hcall, referenceDecode_aligned (Buffer.aligned_ofWords ws), Buffer.wordCount_ofWords]

/-- The outcome of a stream: the counts of its whole records, or the truncation of what follows them (R50, R80). -/
theorem outcomeOfWords_stream {rs : List Record} (hrs : ∀ r ∈ rs, r.wellFormed = true) {rest : List Word}
    (hrest : readRecord rest = none) :
    outcomeOfWords (streamWords rs ++ rest) =
      some (streamEnd (secondsIn rs) (hitsIn rs) (streamWords rs).length rest) := by
  obtain ⟨n, hn⟩ : ∃ n, (streamWords rs ++ rest).length + 1 = rs.length + (n + 1) := by
    have := length_le_streamWords rs
    exact ⟨(streamWords rs ++ rest).length - rs.length, by rw [List.length_append]; omega⟩
  have hrecords := decodeLoop_records hrs [] rest (n + 1) 0 0
  have hend := loopBody_streamEnd hrest (streamWords rs) (secondsIn rs) (hitsIn rs)
  simp only [List.nil_append, List.length_nil, Nat.zero_add] at hrecords
  rw [outcomeOfWords_eq_decodeLoop, hn, hrecords, decodeLoop, hend]

/-- Every word stream is a list of well-formed records and then words that begin no whole record. -/
theorem exists_stream (ws : List Word) : ∃ (rs : List Record) (rest : List Word),
    (∀ r ∈ rs, r.wellFormed = true) ∧ readRecord rest = none ∧ streamWords rs ++ rest = ws := by
  match h : readRecord ws with
  | none => exact ⟨[], ws, by simp, h, rfl⟩
  | some (r, ws') =>
    obtain ⟨hr, hwords⟩ := recordReadIsTheWordsRead ws ws' r h
    have hlt : ws'.length < ws.length := by rw [← hwords]; simp [Record.words]
    obtain ⟨rs, rest, hrs, hrest, hws'⟩ := exists_stream ws'
    exact ⟨r :: rs, rest, List.forall_mem_cons.mpr ⟨hr, hrs⟩, hrest,
      by rw [streamWords, List.append_assoc, hws', hwords]⟩
termination_by ws.length

/-- Settles O51: a stream with nothing after its records. -/
theorem wellFormedStreamsDecodeToTheirCounts : Obligations.WellFormedStreamsDecodeToTheirCounts := by
  intro rs hrs
  have h := outcomeOfWords_stream hrs (rest := []) rfl
  rwa [List.append_nil] at h

/-- Settles O52: the stream's parts; with words left over the outcome would be a truncation. -/
theorem onlyWellFormedStreamsDecode : Obligations.OnlyWellFormedStreamsDecode := by
  intro ws sec hit h
  obtain ⟨rs, rest, hrs, hrest, rfl⟩ := exists_stream ws
  rw [outcomeOfWords_stream hrs hrest] at h
  cases rest with
  | cons w rest => cases h
  | nil => cases h; exact ⟨rs, hrs, (List.append_nil _).symm, rfl, rfl⟩

/-! ### Concatenation -/

theorem bytesOfWord_wordOfBytes (b0 b1 b2 b3 : Byte) : bytesOfWord (wordOfBytes b0 b1 b2 b3) = [b0, b1, b2, b3] := by
  have h1 := b1.isLt
  have h2 := b2.isLt
  have h3 := b3.isLt
  simp only [bytesOfWord, List.cons.injEq, and_true]
  refine ⟨tagOf_wordOfBytes b0 b1 b2 b3, ?_, ?_, ?_⟩ <;> apply BitVec.eq_of_toNat_eq <;>
    simp only [BitVec.extractLsb'_toNat, wordOfBytes_toNat, Nat.shiftRight_eq_div_pow] <;> omega

/-- Bytes whose number is a multiple of 4 are the bytes of words (R31). -/
theorem exists_words : ∀ bytes : List Byte, bytes.length % 4 = 0 → ∃ ws, bytesOfWords ws = bytes
  | [], _ => ⟨[], rfl⟩
  | [_], h => absurd h (by simp)
  | [_, _], h => absurd h (by simp)
  | [_, _, _], h => absurd h (by simp)
  | b0 :: b1 :: b2 :: b3 :: rest, h => by
    obtain ⟨ws, rfl⟩ := exists_words rest (by simp only [List.length_cons] at h; omega)
    exact ⟨wordOfBytes b0 b1 b2 b3 :: ws, by rw [bytesOfWords, bytesOfWord_wordOfBytes]; rfl⟩

/-- A buffer whose outcome is no MalformedLength is made of words (R33). -/
theorem exists_words_of_outcome {bytes : List Byte} (h : outcomeOf bytes ≠ some (.malformedLength bytes.length)) :
    ∃ ws, bytesOfWords ws = bytes :=
  exists_words bytes (by_contra fun hlen => h (unalignedLengthIsMalformed bytes 0 hlen).1)

/-- A buffer that decodes is the bytes of a stream of well-formed records, with these counts. -/
theorem exists_records_of_ok {bytes : List Byte} {sec hit : Nat} (h : outcomeOf bytes = some (.ok sec hit)) :
    ∃ rs : List Record, (∀ r ∈ rs, r.wellFormed = true) ∧ bytesOfWords (streamWords rs) = bytes ∧
      secondsIn rs = sec ∧ hitsIn rs = hit := by
  obtain ⟨ws, rfl⟩ := exists_words_of_outcome (bytes := bytes) (by simp [h])
  obtain ⟨rs, hrs, rfl, hsec, hhit⟩ := onlyWellFormedStreamsDecode ws sec hit h
  exact ⟨rs, hrs, rfl, hsec, hhit⟩

/-- Settles O49: both buffers are streams of records, and so is their concatenation. -/
theorem decodingIsAdditive : Obligations.DecodingIsAdditive := by
  intro a b s1 h1 s2 h2 ha hb
  obtain ⟨rs, hrs, rfl, rfl, rfl⟩ := exists_records_of_ok ha
  obtain ⟨rs', hrs', rfl, rfl, rfl⟩ := exists_records_of_ok hb
  rw [← bytesOfWords_append, ← streamWords_append, ← secondsIn_append, ← hitsIn_append]
  exact wellFormedStreamsDecodeToTheirCounts (rs ++ rs') (List.forall_mem_append.mpr ⟨hrs, hrs'⟩)

/-- Settles O50: the first buffer is a stream of records, which stand before those of the second; what is left over is
the same. -/
theorem truncationIndexMovesWithAPrefix : Obligations.TruncationIndexMovesWithAPrefix := by
  intro a b s1 h1 k j ha hb
  obtain ⟨rs, hrs, rfl, -, -⟩ := exists_records_of_ok ha
  obtain ⟨ws, rfl⟩ := exists_words_of_outcome (bytes := b) (by simp [hb])
  obtain ⟨rs', rest, hrs', hrest, rfl⟩ := exists_stream ws
  have hb' := (outcomeOfWords_stream hrs' hrest).symm.trans hb
  have hcat := outcomeOfWords_stream (List.forall_mem_append.mpr ⟨hrs, hrs'⟩) hrest
  rw [streamWords_append, List.append_assoc, List.length_append] at hcat
  rw [← bytesOfWords_append, bytesOfWords_length, Nat.mul_div_cancel_left _ (by decide)]
  cases rest with
  | nil => cases hb'
  | cons w rest => cases hb'; exact hcat

/-- Settles O53: vectors S5 and S3, run. -/
theorem truncatedStreamCanBeCompleted : Obligations.TruncatedStreamCanBeCompleted :=
  ⟨by decide, by decide⟩

/-! ### Zero words -/

/-- The HIT of two zero words (R102). -/
def zeroHit : Record :=
  .hit 0 0 0 0 []

theorem streamWords_replicate_zeroHit (k : Nat) :
    streamWords (List.replicate k zeroHit) = List.replicate (2 * k) 0 := by
  induction k with
  | zero => rfl
  | succ k ih =>
    rw [List.replicate_succ, streamWords, ih]
    rfl

/-- Settles O54: 2k zero words are k records, and one zero word more begins a HIT that is not whole. -/
theorem zeroWordsAreHits : Obligations.ZeroWordsAreHits := by
  intro k
  have hwf : ∀ r ∈ List.replicate k zeroHit, r.wellFormed = true := by
    intro r hr
    rw [List.eq_of_mem_replicate hr]
    rfl
  have hseconds : secondsIn (List.replicate k zeroHit) = 0 := by
    simp [secondsIn, List.countP_replicate, zeroHit, Record.instr, Instr.kind]
  have hhits : hitsIn (List.replicate k zeroHit) = k := by
    simp [hitsIn, List.countP_replicate, zeroHit, Record.instr, Instr.kind]
  rw [← List.replicate_append_replicate, ← streamWords_replicate_zeroHit]
  constructor
  · rw [wellFormedStreamsDecodeToTheirCounts _ hwf, hseconds, hhits]
  · rw [outcomeOfWords_stream hwf rfl, streamWords_replicate_zeroHit, List.length_replicate]
    rfl

/-! ### Words stepped over -/

/-- A record's words may be replaced by those of another of its kind and width, in any stream (R60). -/
theorem outcomeOfWords_replace {before : List Record} (hbefore : ∀ r ∈ before, r.wellFormed = true) {r r' : Record}
    (hr : r.wellFormed = true) (hr' : r'.wellFormed = true) (hkind : r.instr.kind = r'.instr.kind)
    (hlen : r.words.length = r'.words.length) (rest : List Word) :
    outcomeOfWords (streamWords before ++ (r.words ++ rest)) =
      outcomeOfWords (streamWords before ++ (r'.words ++ rest)) := by
  obtain ⟨rs, left, hrs, hleft, rfl⟩ := exists_stream rest
  have houtcome : ∀ q : Record, q.wellFormed = true →
      outcomeOfWords (streamWords before ++ (q.words ++ (streamWords rs ++ left))) =
        some (streamEnd (secondsIn (before ++ q :: rs)) (hitsIn (before ++ q :: rs))
          (streamWords (before ++ q :: rs)).length left) := by
    intro q hq
    rw [← outcomeOfWords_stream (List.forall_mem_append.mpr ⟨hbefore, List.forall_mem_cons.mpr ⟨hq, hrs⟩⟩) hleft,
      streamWords_append, streamWords, List.append_assoc, List.append_assoc]
  rw [houtcome r hr, houtcome r' hr']
  simp [secondsIn, hitsIn, streamWords_append, streamWords, List.countP_cons, hkind, hlen]

theorem hit_wellFormed {tag : Tag} {n : Nibble} {payload : List Word} (htag : isMarkerTag tag = false)
    (hlen : payload.length = n.toNat / 2) (lo24 : Lo24) (lo28 : Lo28) :
    (Record.hit tag lo24 n lo28 payload).wellFormed = true :=
  Record.wellFormed_hit_iff.mpr ⟨by simp [Instr.wellFormed, htag], hlen⟩

/-- Settles O55: alone, such a record is a stream of one; within a stream, it may be replaced. -/
theorem skippedWordsAreNeverClassified : Obligations.SkippedWordsAreNeverClassified := by
  refine ⟨?trigConfigAlone, ?hitAlone, ?trigConfigReplaced, ?hitReplaced⟩
  case trigConfigAlone =>
    intro lo24 cfg
    exact wellFormedStreamsDecodeToTheirCounts [.trigConfig lo24 cfg]
      (by simp [Record.wellFormed, Record.instr, Instr.wellFormed])
  case hitAlone =>
    intro tag lo24 n lo28 payload htag hlen
    have h := wellFormedStreamsDecodeToTheirCounts [.hit tag lo24 n lo28 payload]
      (by simp [hit_wellFormed htag hlen])
    rwa [streamWords, streamWords, List.append_nil] at h
  case trigConfigReplaced =>
    intro before rest lo24 cfg cfg' hbefore
    exact outcomeOfWords_replace hbefore (r := .trigConfig lo24 cfg) (r' := .trigConfig lo24 cfg') rfl rfl rfl rfl rest
  case hitReplaced =>
    intro before rest tag lo24 n lo28 lo28' payload payload' hbefore htag hlen hlen'
    exact outcomeOfWords_replace hbefore (hit_wellFormed htag hlen lo24 lo28) (hit_wellFormed htag hlen' lo24 lo28') rfl
      (by simp [Record.words, Record.tailWords, hlen, hlen']) rest

end Sys2Proof.Machine
